-- ==== Sys2Proof/Word.lean ====
section
/-! DEFINITION. The two word types of the machine (00_scope.md R4, R6): bytes and 16-bit addresses. -/

namespace Sys2Proof

/-- A byte: `XLEN = 8` bits (R4), bits numbered 7 down to 0 (R6). -/
abbrev Byte := BitVec 8

/-- A 16-bit address or program counter: `PCLEN = 16` bits (R4), bits numbered 15 down to 0 (R6). -/
abbrev Addr := BitVec 16

end Sys2Proof
end

