-- ==== Sys2Proof/Machine/Bits.lean ====
section
/-! DEFINITION. Bit fields and byte order (00_scope.md R6, 20_memory.md R36). -/

namespace Sys2Proof

/-- `{h, l}`: the 16-bit word with `h` in bits 15:8 and `l` in bits 7:0 (R6). A word in memory is little-endian (R36). -/
def word (h l : Byte) : Addr := h ++ l

/-- `lo(w) = w[7:0]` (R6). -/
def lo (w : Addr) : Byte := w.extractLsb' 0 8

/-- `hi(w) = w[15:8]` (R6). -/
def hi (w : Addr) : Byte := w.extractLsb' 8 8

/-- `zext_16(v)` (R6, R52): offsets and zero-page addresses are widened with zeros. -/
def zext16 (v : Byte) : Addr := v.zeroExtend 16

/-- `v[7]`, the only sign-like bit this hardware looks at (R6, R100). -/
def bit7 (v : Byte) : Bool := v.getLsbD 7

/-- Byte `k` of an instruction whose bits are `w`, numbered as spec/opcode_table.json numbers them, bit 0 the least significant bit of the first byte, with every bit from
`nbits` on taken as 0. -/
def tableByte (nbits w k : Nat) : Byte := BitVec.ofNat 8 ((w % 2 ^ nbits) / 2 ^ (8 * k))

end Sys2Proof
end

