-- ==== Sys2Proof/Syntax.lean ====
section
/-! DEFINITION. The instructions: one constructor for each of the 18 rows of spec/opcode_table.json (30_encoding.md R56).
An operand is the byte `d8` of format F2 or the little-endian word `a16` of format F3 (R50, R52). A byte that is no load
opcode is no instruction of the table: `step` handles it (43_unrecognized_opcodes.md R120, R122). -/

namespace Sys2Proof

inductive Instr where
  /-- `LDA #imm` (R102). -/
  | ldaImm (d8 : Byte)
  /-- `LDA zp` (R103). -/
  | ldaZp (d8 : Byte)
  /-- `LDA zp,X` (R104). -/
  | ldaZpX (d8 : Byte)
  /-- `LDA abs` (R105). -/
  | ldaAbs (a16 : Addr)
  /-- `LDA abs,X` (R106). -/
  | ldaAbsX (a16 : Addr)
  /-- `LDA abs,Y` (R107). -/
  | ldaAbsY (a16 : Addr)
  /-- `LDA (zp,X)` (R108). -/
  | ldaIndX (d8 : Byte)
  /-- `LDA (zp),Y` (R109). -/
  | ldaIndY (d8 : Byte)
  /-- `LDX #imm` (R110). -/
  | ldxImm (d8 : Byte)
  /-- `LDX zp` (R111). -/
  | ldxZp (d8 : Byte)
  /-- `LDX zp,Y` (R112). -/
  | ldxZpY (d8 : Byte)
  /-- `LDX abs` (R113). -/
  | ldxAbs (a16 : Addr)
  /-- `LDX abs,Y` (R114). -/
  | ldxAbsY (a16 : Addr)
  /-- `LDY #imm` (R115). -/
  | ldyImm (d8 : Byte)
  /-- `LDY zp` (R116). -/
  | ldyZp (d8 : Byte)
  /-- `LDY zp,X` (R117). -/
  | ldyZpX (d8 : Byte)
  /-- `LDY abs` (R118). -/
  | ldyAbs (a16 : Addr)
  /-- `LDY abs,X` (R119). -/
  | ldyAbsX (a16 : Addr)
  deriving DecidableEq, Repr

end Sys2Proof
end

