-- ==== Sys2Proof/Decode.lean ====
section
/-! DEFINITION. The decoder and, after it, the encoder (30_encoding.md R50 to R52, R56 to R59). The opcode byte alone
selects instruction and length (R51). 17 of the 18 opcode values are the spec's general knowledge (D3, G1; log 6). -/

namespace Sys2Proof

/-- A format with operand bytes (R50): `f2` is opcode and one operand byte, `f3` opcode, low byte, high byte. The argument
says which instruction the operand makes. Format F1, the opcode alone, is every byte the table does not list. -/
inductive Form where
  | f2 (build : Byte → Instr)
  | f3 (build : Addr → Instr)

/-- The complete opcode map, row by row (R56). -/
def opcodeTable : List (Byte × Form) :=
  [ (0xA9, .f2 .ldaImm),  (0xA5, .f2 .ldaZp),   (0xB5, .f2 .ldaZpX),  (0xAD, .f3 .ldaAbs),
    (0xBD, .f3 .ldaAbsX), (0xB9, .f3 .ldaAbsY), (0xA1, .f2 .ldaIndX), (0xB1, .f2 .ldaIndY),
    (0xA2, .f2 .ldxImm),  (0xA6, .f2 .ldxZp),   (0xB6, .f2 .ldxZpY),  (0xAE, .f3 .ldxAbs),
    (0xBE, .f3 .ldxAbsY), (0xA0, .f2 .ldyImm),  (0xA4, .f2 .ldyZp),   (0xB4, .f2 .ldyZpX),
    (0xAC, .f3 .ldyAbs),  (0xBC, .f3 .ldyAbsX) ]

/-- The row of an opcode byte; `none` for a byte that is no load (R58). -/
def formOf (op : Byte) : Option Form := opcodeTable.lookup op

/-- The length of an instruction in bytes, told from its opcode byte (R51). -/
def lengthOf (op : Byte) : Nat :=
  match formOf op with
  | some (.f2 _) => 2
  | some (.f3 _) => 3
  | none => 1

/-- The instruction whose bytes are `op`, `b1`, `b2` in ascending addresses, as far as its length reaches (R50, R52);
`none` when `op` is not one of the 18 load opcodes (R58). -/
def decodeInstr (op b1 b2 : Byte) : Option Instr :=
  match formOf op with
  | some (.f2 build) => some (build b1)
  | some (.f3 build) => some (build (word b2 b1))
  | none => none

/-- What the decoder makes of a list of bytes. -/
inductive Decoded where
  /-- A load instruction, and the bytes after it. -/
  | instr (i : Instr) (rest : List Byte)
  /-- The first byte is not one of the 18 load opcodes: length 1, no operand consumed (R58, R120, R122). -/
  | unrecognized (op : Byte) (rest : List Byte)
  /-- The list ends before the instruction does. -/
  | truncated
  deriving DecidableEq, Repr

/-- Decoding, total on any list of bytes. -/
def decode (bytes : List Byte) : Decoded :=
  match bytes with
  | [] => .truncated
  | op :: rest =>
    if bytes.length < lengthOf op then .truncated
    else match decodeInstr op (rest.getD 0 0) (rest.getD 1 0) with
      | some i => .instr i (bytes.drop (lengthOf op))
      | none => .unrecognized op rest

/-! ## The encoder -/

/-- Format F2 (R50): opcode, `d8`. -/
def encodeF2 (op d8 : Byte) : List Byte := [op, d8]

/-- Format F3 (R50): opcode, `a16[7:0]`, `a16[15:8]`. -/
def encodeF3 (op : Byte) (a16 : Addr) : List Byte := [op, lo a16, hi a16]

/-- The bytes of an instruction, at ascending addresses (R50, R56). -/
def encode : Instr → List Byte
  | .ldaImm d => encodeF2 0xA9 d
  | .ldaZp d => encodeF2 0xA5 d
  | .ldaZpX d => encodeF2 0xB5 d
  | .ldaAbs a => encodeF3 0xAD a
  | .ldaAbsX a => encodeF3 0xBD a
  | .ldaAbsY a => encodeF3 0xB9 a
  | .ldaIndX d => encodeF2 0xA1 d
  | .ldaIndY d => encodeF2 0xB1 d
  | .ldxImm d => encodeF2 0xA2 d
  | .ldxZp d => encodeF2 0xA6 d
  | .ldxZpY d => encodeF2 0xB6 d
  | .ldxAbs a => encodeF3 0xAE a
  | .ldxAbsY a => encodeF3 0xBE a
  | .ldyImm d => encodeF2 0xA0 d
  | .ldyZp d => encodeF2 0xA4 d
  | .ldyZpX d => encodeF2 0xB4 d
  | .ldyAbs a => encodeF3 0xAC a
  | .ldyAbsX a => encodeF3 0xBC a

/-! ## The numbering of spec/opcode_table.json -/

/-- What the decoder reads from an instruction word numbered as spec/opcode_table.json numbers it. -/
def decodeTableWord (nbits w : Nat) : Option Instr :=
  decodeInstr (tableByte nbits w 0) (tableByte nbits w 1) (tableByte nbits w 2)

end Sys2Proof
end

