-- ==== Sys2Proof/Config.lean ====
section
/-! DEFINITION. The fixed parameters of 00_scope.md R4. The open parameters of R5, whose values the spec does not
state, stand in Machine/Params.lean. The spec's rules leave no value of an instruction open, so there is no free value here. -/

namespace Sys2Proof.Config

/-- `MEM_SIZE = 65536`: bytes of Memory, addresses 0 to 65535 (R4, R30). -/
def memSize : Nat := 65536

/-- `SP_RESET = 0xFF` (R4, R25). -/
def spReset : Byte := 0xFF

/-- What an address the memory list does not list reads as. Reset zeroes every byte (R25, R34), so 0 is the spec's own
reset value. Memory before the first reset, which holds no value (R26), is not modelled (log 14, 15). -/
def unlistedByte : Byte := 0x00

end Sys2Proof.Config
end

