-- ==== Sys2Proof/Machine/Params.lean ====
section
/-! DEFINITION. The open parameters of 00_scope.md R5. They stand here, and not in Config.lean, so that a later repair may
mend their values. What depends on them takes them as arguments: `State.resetAt`, `hostReset`, `stepWith`, `execute`. -/

namespace Sys2Proof.Params

/-- `RESET_VECTOR`, the constant reset writes to pc (R5, R9). The spec leaves it open and suggests `0xFFFC` (D2).
DESIGN CHOICE, unsafe (log 1). -/
def resetVector : Addr := 0xFFFC

/-- `STUB_OPCODES`, the bytes the decoder recognizes and runs an empty handler for (R5, R122): the spec's default, the
empty set (D8). DESIGN CHOICE, unsafe for a program with store opcodes (log 2). -/
def stubOpcodes : List Byte := []

end Sys2Proof.Params
end

