-- ==== Sys2Proof/Machine/State.lean ====
section
/-! DEFINITION. The state of the machine (10_state.md R10): plain data. -/

namespace Sys2Proof.Machine

/-- The three general registers (R11): A is the source's `acc`. -/
inductive Reg where
  | a
  | x
  | y
  deriving DecidableEq, Repr

/-- The seven independent one-bit flags (R16, R19): carry, zero, interrupt-disable, decimal-mode, break, overflow, negative. -/
structure Flags where
  c : Bool
  z : Bool
  i : Bool
  d : Bool
  b : Bool
  v : Bool
  n : Bool
  deriving DecidableEq, Repr

/-- An entry of the report log (R22, R131, R132). The payload is the spec's decision D9 (log 10). -/
inductive Report where
  /-- `UnknownOpcode(op, at)`: the byte `op` fetched as an opcode at `at` has no handler (R131). -/
  | unknownOpcode (op : Byte) (at_ : Addr)
  /-- `OutOfRange(addr)`: a memory access was presented an address of 65536 or more (R132). -/
  | outOfRange (addr : Nat)
  deriving DecidableEq, Repr

/-- Memory (20_memory.md R30) in canonical form: addresses strictly rising, all below `memSize`, no entry equal to
`Config.unlistedByte`, which an unlisted address reads as. -/
abbrev Memory := List Host.Cell

/-- The whole state (R10). Nothing else is state. -/
structure State where
  /-- `x[A]` (R11). -/
  a : Byte
  /-- `x[X]` (R11). -/
  x : Byte
  /-- `x[Y]` (R11). -/
  y : Byte
  /-- The stack pointer; no instruction reads or writes it (R13). -/
  sp : Byte
  /-- The program counter (R14). -/
  pc : Addr
  flags : Flags
  mem : Memory
  /-- The cycle budget (R20): `some c` during an `execute` invocation, `none` when none is in progress (log 4). -/
  cyc : Option Int
  /-- The report log (R22), oldest entry first. -/
  log : List Report
  deriving DecidableEq, Repr

/-- The reasons the machine could stop with a fault. There are none: the two conditions of this hardware are non-fatal
reports (60_exceptions.md R130, R135), and every step has a next state. -/
inductive Fault where
  deriving DecidableEq, Repr

/-- The reasons an instruction could be refused. -/
inductive Refusal where
  /-- Raised by an arm of `exec` whose instruction has no meaning yet; no arm raises it now. Safe: the run stops. -/
  | notModelled (mnemonic : String)
  deriving DecidableEq, Repr

/-- All flags 0 (R25). -/
def Flags.clear : Flags :=
  { c := false, z := false, i := false, d := false, b := false, v := false, n := false }

/-- The state after construction and `reset`, for a given `RESET_VECTOR` (R25, R150): the constant itself goes to pc (R9),
no invocation is in progress (R25), and no report has been made (R22). -/
def State.resetAt (resetVector : Addr) : State :=
  { a := 0x00, x := 0x00, y := 0x00, sp := Config.spReset, pc := resetVector, flags := Flags.clear,
    mem := [], cyc := none, log := [] }

/-- The machine right after reset (R25), at the model's `RESET_VECTOR` (log 1). -/
def State.reset : State := State.resetAt Params.resetVector

end Sys2Proof.Machine
end

