-- ==== Sys2Proof/Machine/Memory.lean ====
section
/-! DEFINITION. The Memory component (20_memory.md R30 to R34): a bounds-checked flat store of bytes. -/

namespace Sys2Proof.Machine

/-- The byte at an address, in range or not, of a memory in canonical form. -/
def Memory.byteAt : Memory → Nat → Byte
  | [], _ => Config.unlistedByte
  | (b, w) :: m, a => if a = b then w else Memory.byteAt m a

/-- Makes the byte at `a` equal to `v`, keeping the canonical form. -/
def Memory.put : Memory → Nat → Byte → Memory
  | [], a, v => if v = Config.unlistedByte then [] else [(a, v)]
  | (b, w) :: m, a, v =>
    if a < b then
      if v = Config.unlistedByte then (b, w) :: m else (a, v) :: (b, w) :: m
    else if a = b then
      if v = Config.unlistedByte then m else (a, v) :: m
    else (b, w) :: Memory.put m a v

/-- The canonical form of the part of a memory whose addresses start at `lowest`. -/
def Memory.wfFrom : Nat → Memory → Bool
  | _, [] => true
  | lowest, (a, v) :: m =>
    decide (lowest ≤ a) && decide (a < Config.memSize) && decide (v ≠ Config.unlistedByte) && Memory.wfFrom (a + 1) m

/-- The canonical form: addresses strictly rising and in range, no entry that reads as an unlisted address does. -/
def Memory.wf (m : Memory) : Bool := Memory.wfFrom 0 m

/-- The discriminated result of `read` (R32): a byte, or the failure; never a sentinel byte (90_conflicts.md C3). -/
inductive ReadResult where
  | byte (v : Byte)
  | outOfRange (addr : Nat)
  deriving DecidableEq, Repr

/-- The discriminated result of `write` (R33): the stored value with the new memory, or the failure. -/
inductive WriteResult where
  | stored (v : Byte) (m : Memory)
  | outOfRange (addr : Nat)
  deriving DecidableEq, Repr

/-- `read(address)` (R32). The address is a natural number (R31, D17). -/
def Memory.read (m : Memory) (addr : Nat) : ReadResult :=
  if addr < Config.memSize then .byte (m.byteAt addr) else .outOfRange addr

/-- `write(address, value)` (R33): the stored value is the result; an address out of range changes nothing. -/
def Memory.write (m : Memory) (addr : Nat) (v : Byte) : WriteResult :=
  if addr < Config.memSize then .stored v (m.put addr v) else .outOfRange addr

/-- `init()` (R34): zero to every address, so that no address is listed. -/
def Memory.init (_ : Memory) : Memory := []

end Sys2Proof.Machine
end

