-- ==== Sys2Proof/Machine/Ops.lean ====
section
/-! DEFINITION. Named operations over registers, budget and log, and the charged memory primitives
(41_addressing_modes.md R80 to R83). A primitive also emits the cycle units it consumes, one entry for each unit it
charges, in order (20_memory.md R47, 41_addressing_modes.md R92); they are an output of the step, not state. -/

namespace Sys2Proof.Machine

/-! ## Registers, budget, reports -/

/-- `x[r]` (R7). -/
def State.reg (s : State) : Reg → Byte
  | .a => s.a
  | .x => s.x
  | .y => s.y

/-- `x[r] <- v` (R7). -/
def State.setReg (s : State) (r : Reg) (v : Byte) : State :=
  match r with
  | .a => { s with a := v }
  | .x => { s with x := v }
  | .y => { s with y := v }

/-- `pc <- pc +16 1` (R14). -/
def State.advance (s : State) : State := { s with pc := s.pc + 1 }

/-- `cyc <- cyc - 1`: every charge of this hardware is made one unit at a time (R7, R80, R82, R89 to R91). -/
def State.charge (s : State) : State := { s with cyc := s.cyc.map (· - 1) }

/-- The one thing a condition does (60_exceptions.md R130, R135): an entry is appended to the log. Nothing is saved, no
flag or mode changes, control goes nowhere, and so nothing returns from it (R137). -/
def State.report (s : State) (e : Report) : State := { s with log := s.log ++ [e] }

/-- The display code of a condition (R133, D14; log 19); nothing in the machine reads it. -/
def Report.code : Report → Nat
  | .outOfRange _ => 1
  | .unknownOpcode _ _ => 2

/-! ## Cycle units and accesses -/

/-- What one charged unit is (R92): a byte read at the memory interface, or no access at all. -/
inductive CycleUnit where
  | read (addr : Nat)
  | idle
  deriving DecidableEq, Repr

/-- The result of a charged primitive or of a resolver: it is done with a value, or one of its reads failed and the
instruction is abandoned (R132, D10; log 11). -/
inductive Access (α : Type) where
  | done (v : α) (s : State) (units : List CycleUnit)
  | failed (s : State) (units : List CycleUnit)
  deriving DecidableEq, Repr

/-- The state an access leaves. -/
def Access.state {α : Type} : Access α → State
  | .done _ s _ => s
  | .failed s _ => s

/-- The units an access consumed, in order. -/
def Access.units {α : Type} : Access α → List CycleUnit
  | .done _ _ us => us
  | .failed _ us => us

/-- Goes on with `f` after an access that is done. After a failure nothing more is read or charged (R132). -/
def Access.andThen {α β : Type} (m : Access α) (f : α → State → Access β) : Access β :=
  match m with
  | .failed s us => .failed s us
  | .done v s us =>
    match f v s with
    | .done w t us' => .done w t (us ++ us')
    | .failed t us' => .failed t (us ++ us')

/-- `ReadByte(a)` (R82): one unit, pc unchanged. A failing read is charged, and reported (R132). -/
def readByte (addr : Nat) (s : State) : Access Byte :=
  match s.mem.read addr with
  | .byte v => .done v s.charge [.read addr]
  | .outOfRange e => .failed (s.charge.report (.outOfRange e)) [.read addr]

/-- `FetchByte()` of an operand byte (R80): the byte at pc, one unit, pc advanced. -/
def fetchByte (s : State) : Access Byte :=
  (readByte s.pc.toNat s).andThen fun v t => .done v t.advance []

/-- `FetchByte()` of the opcode (R67, R80). If this read fails pc is advanced all the same (R132). -/
def fetchOpcode (s : State) : Access Byte :=
  match readByte s.pc.toNat s with
  | .done v t us => .done v t.advance us
  | .failed t us => .failed t.advance us

/-- `FetchWord()` (R81): two byte fetches, the low byte first. -/
def fetchWord (s : State) : Access Addr :=
  (fetchByte s).andThen fun l t => (fetchByte t).andThen fun h u => .done (word h l) u []

/-- `ReadPtrZP(p)` (R83): the pointer's high byte comes from `p +8 1`, inside the zero page (D6; log 9). -/
def readPtrZp (p : Byte) (s : State) : Access Addr :=
  (readByte (zext16 p).toNat s).andThen fun l t =>
    (readByte (zext16 (p + 1)).toNat t).andThen fun h u => .done (word h l) u []

/-- A charged unit without a memory access (R92). -/
def idleUnit (s : State) : Access Unit := .done () s.charge [.idle]

/-! ## Host operations on the state -/

/-- The byte at a 16-bit address, with nothing charged: what the decoder looks at, and what claims speak of. -/
def State.byteAt (s : State) (addr : Addr) : Byte := s.mem.byteAt addr.toNat

/-- `reset` for a given `RESET_VECTOR` (70_reset_and_hazards.md R150). It touches neither the budget nor the log (R25). -/
def hostReset (resetVector : Addr) (s : State) : State :=
  { s with pc := resetVector, sp := Config.spReset, a := 0x00, x := 0x00, y := 0x00,
           flags := Flags.clear, mem := s.mem.init }

/-- The host's `memory.read` (R32, R72): a failure is reported (R130, R132). -/
def hostRead (addr : Nat) (s : State) : ReadResult × State :=
  match s.mem.read addr with
  | .byte v => (.byte v, s)
  | .outOfRange e => (.outOfRange e, s.report (.outOfRange e))

/-- The host's `memory.write` (R33, R72): the value stored is the answer; a failure changes no memory and is reported. -/
def hostWrite (addr : Nat) (v : Byte) (s : State) : ReadResult × State :=
  match s.mem.write addr v with
  | .stored v m => (.byte v, { s with mem := m })
  | .outOfRange e => (.outOfRange e, s.report (.outOfRange e))

/-- The host's `memory.init` (R34, R72). -/
def hostInit (s : State) : State := { s with mem := s.mem.init }

/-- The start of `execute(n)` (R66): the budget is created with the value the host passes (R20). -/
def beginExecute (n : Int) (s : State) : State := { s with cyc := some n }

/-- The return of `execute` (R66): the budget is discarded. -/
def endExecute (s : State) : State := { s with cyc := none }

/-- The loop is Running (R21): an invocation is in progress and its budget is positive. -/
def State.running (s : State) : Bool :=
  match s.cyc with
  | some c => decide (0 < c)
  | none => false

/-- Stores the bytes of an instruction word numbered as spec/opcode_table.json numbers it, up to the longest instruction
(3 bytes), at pc and onwards (mod 65536). -/
def storeTableWord (nbits w : Nat) (s : State) : State :=
  let m0 := s.mem.put s.pc.toNat (tableByte nbits w 0)
  let m1 := m0.put (s.pc + 1).toNat (tableByte nbits w 1)
  { s with mem := m1.put (s.pc + 2).toNat (tableByte nbits w 2) }

end Sys2Proof.Machine
end

