-- ==== Sys2Proof/Machine/Flags.lean ====
section
/-! DEFINITION. The flag-update routine (42_load_family.md R100), the only flag computation of this hardware. -/

namespace Sys2Proof.Machine

/-- `FlagUpdate(v)` (R100): bit 7 sets N, zero sets Z, and neither is ever cleared (90_conflicts.md C2, D12). -/
def flagUpdate (v : Byte) (s : State) : State :=
  { s with flags :=
      { s.flags with
        n := if bit7 v then true else s.flags.n
        z := if v = 0x00 then true else s.flags.z } }

end Sys2Proof.Machine
end

