-- ==== Sys2Proof/Machine/Operands.lean ====
section
/-! DEFINITION. The addressing-mode resolvers (41_addressing_modes.md R84 to R91) and the common shape of a load (R101).
A resolver takes the SOURCE of its operand: `fetchByte` or `fetchWord` in the spec's own step (Machine/Reference.lean), and
`decodedByte d` or `decodedWord a` where the decoder has read the operand already (log 21). Both advance pc and charge. -/

namespace Sys2Proof.Machine

/-- The operand byte `d8`, fetched and charged as R80 says, with the value the decoder read at the same place. -/
def decodedByte (d : Byte) (s : State) : Access Byte :=
  (fetchByte s).andThen fun _ t => .done d t []

/-- The operand word `a16`, fetched and charged as R81 says, with the value the decoder read at the same place. -/
def decodedWord (a : Addr) (s : State) : Access Addr :=
  (fetchWord s).andThen fun _ t => .done a t []

/-- `PageCross(base, off)` (R84): whether adding the offset changes the high byte. -/
def pageCross (base : Addr) (off : Byte) : Bool :=
  decide ((base ^^^ (base + zext16 off)) >>> 8 ≠ 0)

/-- The extra unit of an indexed access that crosses a page (R89, R91): idle, before the data read (R92, D11; log 12). -/
def pageCrossPenalty (base : Addr) (off : Byte) (s : State) : Access Unit :=
  if pageCross base off then idleUnit s else .done () s []

/-- `Imm()` (R85): the operand byte is the datum. -/
def resolveImm (operand : State → Access Byte) (s : State) : Access Byte := operand s

/-- `Zp()` (R86). -/
def resolveZp (operand : State → Access Byte) (s : State) : Access Byte :=
  (operand s).andThen fun d t => readByte (zext16 d).toNat t

/-- `ZpIdx(off)` (R87): the sum wraps inside the zero page (D4; log 7) and costs nothing extra (90_conflicts.md C1). -/
def resolveZpIdx (operand : State → Access Byte) (off : Byte) (s : State) : Access Byte :=
  (operand s).andThen fun d t => readByte (zext16 (d + off)).toNat t

/-- `Abs()` (R88). -/
def resolveAbs (operand : State → Access Addr) (s : State) : Access Byte :=
  (operand s).andThen fun ea t => readByte ea.toNat t

/-- `base +16 zext_16(off)`, which wraps mod 65536 (R89, R91, D5; log 8), with its page-cross unit and its data read. -/
def readIndexed (base : Addr) (off : Byte) (s : State) : Access Byte :=
  (pageCrossPenalty base off s).andThen fun _ t => readByte (base + zext16 off).toNat t

/-- `AbsIdx(off)` (R89). -/
def resolveAbsIdx (operand : State → Access Addr) (off : Byte) (s : State) : Access Byte :=
  (operand s).andThen fun base t => readIndexed base off t

/-- `IndX()` (R90): the pointer location `d +8 x[X]` wraps inside the zero page; the fixed extra unit comes before the
pointer read (90_conflicts.md C5). -/
def resolveIndX (operand : State → Access Byte) (s : State) : Access Byte :=
  (operand s).andThen fun d t =>
    (idleUnit t).andThen fun _ u =>
      (readPtrZp (d + t.x) u).andThen fun ea w => readByte ea.toNat w

/-- `IndY()` (R91): the offset is added to the pointer. -/
def resolveIndY (operand : State → Access Byte) (s : State) : Access Byte :=
  (operand s).andThen fun d t =>
    (readPtrZp d t).andThen fun base u => readIndexed base u.y u

/-- `Load(r, resolve)` (R101). If a read of `resolve` failed, neither the register nor a flag is written (R132). -/
def load (r : Reg) (resolve : State → Access Byte) (s : State) : Access Unit :=
  (resolve s).andThen fun v t => .done () (flagUpdate v (t.setReg r v)) []

/-- A whole load instruction: the opcode fetch of R67, then the handler of R101. -/
def loadInstr (r : Reg) (resolve : State → Access Byte) (s : State) : Access Unit :=
  (fetchOpcode s).andThen fun _ t => load r resolve t

/-- An instruction ends in the state its accesses leave; no condition stops the machine (60_exceptions.md R130). -/
def completes (m : Access Unit) : Host.Outcome State Fault Refusal := .next m.state

end Sys2Proof.Machine
end

