-- ==== Sys2Proof/Machine/Lda.lean ====
section
/-! DEFINITION. LDA: load accumulator (42_load_family.md R102 to R109). Each meaning is the whole
instruction, opcode fetch included, from the state before it. -/

namespace Sys2Proof.Machine

/-- `LDA #imm` (R102). -/
def execLdaImm (d8 : Byte) (s : State) : Host.Outcome State Fault Refusal :=
  completes (loadInstr .a (resolveImm (decodedByte d8)) s)

/-- `LDA zp` (R103). -/
def execLdaZp (d8 : Byte) (s : State) : Host.Outcome State Fault Refusal :=
  completes (loadInstr .a (resolveZp (decodedByte d8)) s)

/-- `LDA zp,X` (R104). -/
def execLdaZpX (d8 : Byte) (s : State) : Host.Outcome State Fault Refusal :=
  completes (loadInstr .a (resolveZpIdx (decodedByte d8) s.x) s)

/-- `LDA abs` (R105). -/
def execLdaAbs (a16 : Addr) (s : State) : Host.Outcome State Fault Refusal :=
  completes (loadInstr .a (resolveAbs (decodedWord a16)) s)

/-- `LDA abs,X` (R106). -/
def execLdaAbsX (a16 : Addr) (s : State) : Host.Outcome State Fault Refusal :=
  completes (loadInstr .a (resolveAbsIdx (decodedWord a16) s.x) s)

/-- `LDA abs,Y` (R107). -/
def execLdaAbsY (a16 : Addr) (s : State) : Host.Outcome State Fault Refusal :=
  completes (loadInstr .a (resolveAbsIdx (decodedWord a16) s.y) s)

/-- `LDA (zp,X)` (R108). -/
def execLdaIndX (d8 : Byte) (s : State) : Host.Outcome State Fault Refusal :=
  completes (loadInstr .a (resolveIndX (decodedByte d8)) s)

/-- `LDA (zp),Y` (R109). -/
def execLdaIndY (d8 : Byte) (s : State) : Host.Outcome State Fault Refusal :=
  completes (loadInstr .a (resolveIndY (decodedByte d8)) s)

end Sys2Proof.Machine
end

