-- ==== Sys2Proof/Machine/Ldx.lean ====
section
/-! DEFINITION. LDX: load X (42_load_family.md R110 to R114). Each meaning is the whole
instruction, opcode fetch included, from the state before it. -/

namespace Sys2Proof.Machine

/-- `LDX #imm` (R110). -/
def execLdxImm (d8 : Byte) (s : State) : Host.Outcome State Fault Refusal :=
  completes (loadInstr .x (resolveImm (decodedByte d8)) s)

/-- `LDX zp` (R111). -/
def execLdxZp (d8 : Byte) (s : State) : Host.Outcome State Fault Refusal :=
  completes (loadInstr .x (resolveZp (decodedByte d8)) s)

/-- `LDX zp,Y` (R112). -/
def execLdxZpY (d8 : Byte) (s : State) : Host.Outcome State Fault Refusal :=
  completes (loadInstr .x (resolveZpIdx (decodedByte d8) s.y) s)

/-- `LDX abs` (R113). -/
def execLdxAbs (a16 : Addr) (s : State) : Host.Outcome State Fault Refusal :=
  completes (loadInstr .x (resolveAbs (decodedWord a16)) s)

/-- `LDX abs,Y` (R114). -/
def execLdxAbsY (a16 : Addr) (s : State) : Host.Outcome State Fault Refusal :=
  completes (loadInstr .x (resolveAbsIdx (decodedWord a16) s.y) s)

end Sys2Proof.Machine
end

