-- ==== Sys2Proof/Machine/Ldy.lean ====
section
/-! DEFINITION. LDY: load Y (42_load_family.md R115 to R119). Each meaning is the whole
instruction, opcode fetch included, from the state before it. -/

namespace Sys2Proof.Machine

/-- `LDY #imm` (R115). -/
def execLdyImm (d8 : Byte) (s : State) : Host.Outcome State Fault Refusal :=
  completes (loadInstr .y (resolveImm (decodedByte d8)) s)

/-- `LDY zp` (R116). -/
def execLdyZp (d8 : Byte) (s : State) : Host.Outcome State Fault Refusal :=
  completes (loadInstr .y (resolveZp (decodedByte d8)) s)

/-- `LDY zp,X` (R117). -/
def execLdyZpX (d8 : Byte) (s : State) : Host.Outcome State Fault Refusal :=
  completes (loadInstr .y (resolveZpIdx (decodedByte d8) s.x) s)

/-- `LDY abs` (R118). -/
def execLdyAbs (a16 : Addr) (s : State) : Host.Outcome State Fault Refusal :=
  completes (loadInstr .y (resolveAbs (decodedWord a16)) s)

/-- `LDY abs,X` (R119). -/
def execLdyAbsX (a16 : Addr) (s : State) : Host.Outcome State Fault Refusal :=
  completes (loadInstr .y (resolveAbsIdx (decodedWord a16) s.x) s)

end Sys2Proof.Machine
end

