-- ==== Sys2Proof/Machine/Unrecognized.lean ====
section
/-! DEFINITION. Opcode bytes that are no load (43_unrecognized_opcodes.md R120, R122). -/

namespace Sys2Proof.Machine

/-- A byte with no handler: the opcode fetch and, unless it is a stub opcode (R122), the report (R120, R131). -/
def otherOpcode (stubs : List Byte) (s : State) : Access Unit :=
  (fetchOpcode s).andThen fun op t =>
    if op ∈ stubs then .done () t [] else .done () (t.report (.unknownOpcode op s.pc)) []

end Sys2Proof.Machine
end

