-- ==== Sys2Proof/Machine/Loop.lean ====
section
/-! DEFINITION. The fetch-decode-execute loop (40_fetch_execute_loop.md R66 to R68), for a given `STUB_OPCODES`. -/

namespace Sys2Proof.Machine

/-- The instruction at pc, as the decoder reads it: byte `k` is at `pc +16 k` (30_encoding.md R50, 10_state.md R14). -/
def State.instrAt (s : State) : Option Instr :=
  decodeInstr (s.byteAt s.pc) (s.byteAt (s.pc + 1)) (s.byteAt (s.pc + 2))

/-- One loop iteration, the whole of one instruction (R67): decode, then execute (log 21). -/
def runInstruction (stubs : List Byte) (s : State) : Host.Outcome State Fault Refusal :=
  match s.instrAt with
  | some i => exec i s
  | none => completes (otherOpcode stubs s)

/-- One turn of the loop of R66: while the budget is positive, one whole instruction (R68); when it is not, `execute`
returns and the budget is discarded; with no invocation in progress the machine does nothing (R21, R65; log 5). -/
def stepWith (stubs : List Byte) (s : State) : Host.Outcome State Fault Refusal :=
  match s.cyc with
  | some c => if 0 < c then runInstruction stubs s else .next (endExecute s)
  | none => .next s

/-- A state in which the very next step runs the instruction at pc: while no invocation with budget left is in progress,
that of `execute(1)`, which runs exactly one instruction (R72; log 18). -/
def State.madeRunning (s : State) : State := if s.running then s else beginExecute 1 s

end Sys2Proof.Machine
end

