-- ==== Sys2Proof/Machine/Step.lean ====
section
/-! DEFINITION. The step of the machine, at the model's `STUB_OPCODES`, and how the host places one instruction. -/

namespace Sys2Proof.Machine

/-- One step: one turn of the loop of 40_fetch_execute_loop.md R66. -/
def step (s : State) : Host.Outcome State Fault Refusal := stepWith Params.stubOpcodes s

/-- The state with an instruction word stored at pc, where the next instruction is fetched, and an invocation in progress,
as the host's memory writes and `execute(1)` leave it (70_reset_and_hazards.md R152; log 18). -/
def State.withFetchWord (s : State) (nbits w : Nat) : State := (storeTableWord nbits w s).madeRunning

end Sys2Proof.Machine
end

