-- ==== Sys2Proof/Machine/Boundary.lean ====
section
/-! DEFINITION. The host boundary (40_fetch_execute_loop.md R72): what the host can do, and when. -/

namespace Sys2Proof.Machine

/-- The host's calls. Reading registers, flags and the log has no effect, so it is no call. -/
inductive HostCall where
  | reset
  | write (addr : Nat) (v : Byte)
  | read (addr : Nat)
  | init
  /-- `execute(n)`: the invocation begins; the steps of the machine then run it. -/
  | execute (n : Int)
  deriving DecidableEq, Repr

/-- What a call answers. -/
inductive Reply where
  | nothing
  | value (r : ReadResult)
  deriving DecidableEq, Repr

/-- A call of the host, for a given `RESET_VECTOR`. While an invocation is in progress the host has no move: the source
states that exclusivity as a precondition (R40, R72, D19; log 16). -/
def hostCall (resetVector : Addr) (call : HostCall) (s : State) : Option (Reply × State) :=
  if s.cyc.isSome then none
  else match call with
    | .reset => some (.nothing, hostReset resetVector s)
    | .write addr v => some (.value (hostWrite addr v s).1, (hostWrite addr v s).2)
    | .read addr => some (.value (hostRead addr s).1, (hostRead addr s).2)
    | .init => some (.nothing, hostInit s)
    | .execute n => some (.nothing, beginExecute n s)

end Sys2Proof.Machine
end

