-- ==== Sys2Proof/Machine/Execute.lean ====
section
/-! DEFINITION. A whole `execute` invocation (40_fetch_execute_loop.md R66). -/

namespace Sys2Proof.Machine

/-- The loop of R66, for at most `fuel` iterations: it stops before that when the budget is not positive. Every iteration
charges at least one unit, so `n` iterations are enough for a budget of `n` (R70). -/
def runLoop (stubs : List Byte) : (fuel : Nat) → State → Host.Outcome State Fault Refusal
  | 0, s => .next s
  | fuel + 1, s =>
    if s.running then
      match runInstruction stubs s with
      | .next t => runLoop stubs fuel t
      | .fault r => .fault r
      | .refused r => .refused r
    else .next s

/-- The number of instructions the loop runs. -/
def loopSteps (stubs : List Byte) : (fuel : Nat) → State → Nat
  | 0, _ => 0
  | fuel + 1, s =>
    if s.running then
      match runInstruction stubs s with
      | .next t => loopSteps stubs fuel t + 1
      | _ => 1
    else 0

/-- `execute(n)` up to the moment its loop stops: the final budget is still to be seen (60_exceptions.md R140, D18; log 17). -/
def executeLoop (stubs : List Byte) (n : Int) (s : State) : Host.Outcome State Fault Refusal :=
  runLoop stubs n.toNat (beginExecute n s)

/-- `execute(n)` (R66), return included: the budget is discarded. -/
def execute (stubs : List Byte) (n : Int) (s : State) : Host.Outcome State Fault Refusal :=
  match executeLoop stubs n s with
  | .next t => .next (endExecute t)
  | .fault r => .fault r
  | .refused r => .refused r

end Sys2Proof.Machine
end

