-- ==== Sys2Proof/Machine/Reference.lean ====
section
/-! DEFINITION. The spec's own step, read from 40_fetch_execute_loop.md R67 line by line: the opcode is fetched, then the
handler fetches its operands from memory as it goes. The machine's step decodes first and executes then
(Machine/Loop.lean); a claim says that the two agree. This step also shows the units it consumes, in order (R92). -/

namespace Sys2Proof.Machine

/-- The handler of an opcode byte, as the rules R102 to R119 give it; `none` for a byte without one (R58, R59). -/
def handlerOf (op : Byte) : Option (State → Access Unit) :=
  match op.toNat with
  | 0xA9 => some (fun s => load .a (resolveImm fetchByte) s)
  | 0xA5 => some (fun s => load .a (resolveZp fetchByte) s)
  | 0xB5 => some (fun s => load .a (resolveZpIdx fetchByte s.x) s)
  | 0xAD => some (fun s => load .a (resolveAbs fetchWord) s)
  | 0xBD => some (fun s => load .a (resolveAbsIdx fetchWord s.x) s)
  | 0xB9 => some (fun s => load .a (resolveAbsIdx fetchWord s.y) s)
  | 0xA1 => some (fun s => load .a (resolveIndX fetchByte) s)
  | 0xB1 => some (fun s => load .a (resolveIndY fetchByte) s)
  | 0xA2 => some (fun s => load .x (resolveImm fetchByte) s)
  | 0xA6 => some (fun s => load .x (resolveZp fetchByte) s)
  | 0xB6 => some (fun s => load .x (resolveZpIdx fetchByte s.y) s)
  | 0xAE => some (fun s => load .x (resolveAbs fetchWord) s)
  | 0xBE => some (fun s => load .x (resolveAbsIdx fetchWord s.y) s)
  | 0xA0 => some (fun s => load .y (resolveImm fetchByte) s)
  | 0xA4 => some (fun s => load .y (resolveZp fetchByte) s)
  | 0xB4 => some (fun s => load .y (resolveZpIdx fetchByte s.x) s)
  | 0xAC => some (fun s => load .y (resolveAbs fetchWord) s)
  | 0xBC => some (fun s => load .y (resolveAbsIdx fetchWord s.x) s)
  | _ => none

/-- `Step()` (R67), for a given `STUB_OPCODES`. -/
def specStep (stubs : List Byte) (s : State) : Access Unit :=
  (fetchOpcode s).andThen fun op t =>
    match handlerOf op with
    | some handler => handler t
    | none => if op ∈ stubs then .done () t [] else .done () (t.report (.unknownOpcode op s.pc)) []

end Sys2Proof.Machine
end

