-- ==== Sys2Proof/WellFormed.lean ====
section
/-! DEFINITION. Well-formedness. Within a recognized instruction every operand value is legal (30_encoding.md R58) and the
operand types of `Instr` have exactly those values, so no instruction term is ill-formed; the one constraint the spec puts
on a term a modeller supplies is on the parameter `STUB_OPCODES` (43_unrecognized_opcodes.md R122). -/

namespace Sys2Proof

/-- Every instruction is well-formed: all 256 values of `d8` and all 65536 values of `a16` are legal (R58). -/
def Instr.wf (_ : Instr) : Bool := true

/-- `STUB_OPCODES` must not contain any of the 18 load opcodes (R122, R5). -/
def stubsWf (stubs : List Byte) : Bool := stubs.all fun op => (formOf op).isNone

end Sys2Proof
end

