-- ==== Sys2Proof/Safety.lean ====
section
/-! DEFINITION. The terms claims use: what every run of the machine keeps, and the effects the rules state, written as
plain equations on the state and not through the operations of the machine. -/

namespace Sys2Proof.Machine

/-! ## What every run keeps -/

/-- The five flags no instruction writes are 0 (10_state.md R18). -/
def Flags.inertClear (f : Flags) : Prop :=
  f.c = false ∧ f.i = false ∧ f.d = false ∧ f.b = false ∧ f.v = false

/-- The invariant of the machine: memory keeps its canonical form (log 14), sp holds its reset value (R13), and the five
inert flags are 0 (R18). -/
def State.Inv (s : State) : Prop :=
  s.mem.wf = true ∧ s.sp = 0xFF ∧ s.flags.inertClear

/-- The states a machine can be in: after reset, and then by steps of the core and calls of the host (R152). -/
inductive Reachable (resetVector : Addr) (stubs : List Byte) : State → Prop where
  | reset : Reachable resetVector stubs (State.resetAt resetVector)
  | step {s t : State} : Reachable resetVector stubs s → stepWith stubs s = .next t → Reachable resetVector stubs t
  | host {s t : State} {call : HostCall} {reply : Reply} : Reachable resetVector stubs s →
      hostCall resetVector call s = some (reply, t) → Reachable resetVector stubs t

/-- A run without an error report (60_exceptions.md, section 6). -/
def State.noReport (s : State) : Prop := s.log = []

/-! ## The effects the rules state -/

/-- The flags after loading `v`, by the three value classes of 42_load_family.md R100. -/
def flagsAfterLoad (v : Byte) (f : Flags) : Flags :=
  if v.toNat = 0 then { f with z := true }
  else if v.toNat ≤ 0x7F then f
  else { f with n := true }

/-- The state after a load of `v` into `r` by an instruction of `len` bytes that costs `units`: the target register, pc,
the budget and the flags change, and nothing else (42_load_family.md R101). -/
def afterLoad (r : Reg) (v : Byte) (len : Nat) (units : Int) (s : State) : State :=
  { a := if r = .a then v else s.a
    x := if r = .x then v else s.x
    y := if r = .y then v else s.y
    sp := s.sp
    pc := BitVec.ofNat 16 (s.pc.toNat + len)
    flags := flagsAfterLoad v s.flags
    mem := s.mem
    cyc := s.cyc.map fun c => c - units
    log := s.log }

/-- The zero-page address of a sum of two bytes, mod 256 (41_addressing_modes.md R87, R90, D4, D6). -/
def zeroPageSum (d off : Byte) : Addr := BitVec.ofNat 16 ((d.toNat + off.toNat) % 256)

/-- The effective address `base + off`, mod 65536 (41_addressing_modes.md R89, R91, D5). -/
def indexedAddr (base : Addr) (off : Byte) : Addr := BitVec.ofNat 16 (base.toNat + off.toNat)

/-- The extra unit of an indexed access: one when the low byte of the base plus the offset reaches 256 (R84, R106). -/
def crossUnits (base : Addr) (off : Byte) : Int := if base.toNat % 256 + off.toNat ≥ 256 then 1 else 0

/-- The little-endian word at zero-page address `p`, its high byte at `(p + 1) mod 256` (R83, R36, D6). -/
def pointerAt (p : Byte) (s : State) : Addr :=
  BitVec.ofNat 16 (256 * (s.byteAt (zeroPageSum p 1)).toNat + (s.byteAt (zeroPageSum p 0)).toNat)

/-- The target register of an instruction (30_encoding.md R56, 10_state.md R12). -/
def targetOf : Instr → Reg
  | .ldaImm _ | .ldaZp _ | .ldaZpX _ | .ldaAbs _ | .ldaAbsX _ | .ldaAbsY _ | .ldaIndX _ | .ldaIndY _ => .a
  | .ldxImm _ | .ldxZp _ | .ldxZpY _ | .ldxAbs _ | .ldxAbsY _ => .x
  | .ldyImm _ | .ldyZp _ | .ldyZpX _ | .ldyAbs _ | .ldyAbsX _ => .y

/-- The two-byte opcodes (format F2) of 30_encoding.md R56. -/
def opcodesF2 : List Byte := [0xA9, 0xA5, 0xB5, 0xA1, 0xB1, 0xA2, 0xA6, 0xB6, 0xA0, 0xA4, 0xB4]

/-- The three-byte opcodes (format F3) of 30_encoding.md R56. -/
def opcodesF3 : List Byte := [0xAD, 0xBD, 0xB9, 0xAE, 0xBE, 0xAC, 0xBC]

/-- The addresses of the bytes read by a list of cycle units, in order. -/
def readsOf (us : List CycleUnit) : List Nat :=
  us.filterMap fun
    | .read a => some a
    | .idle => none

end Sys2Proof.Machine
end

