-- ==== Sys2Proof/Certificates/Slice0/Obligations.lean ====
section
/-! DEFINITION. The statements of this model, for the provers. Each docstring names the rules of spec/ it formalises, or the
sections it rests on where it rests on a decision the spec marks as its own (the log entry is named then). -/

open Sys2Proof Sys2Proof.Machine

/-! ## Encoding -/

/-- Decoding the bytes of an instruction, with whatever follows them, gives it back with every operand, and leaves what
follows (30_encoding.md R50 to R52). -/
def Obligations.DecodeOfEncodeGivesInstructionBack : Prop :=
  ∀ (i : Instr) (rest : List Byte), decode (encode i ++ rest) = .instr i rest

/-- The other direction: bytes that decode to an instruction are that instruction's bytes and the rest, so no two encodings
share a meaning and none is dropped (30_encoding.md R50, R51, R59). -/
def Obligations.EncodeOfDecodeGivesBytesBack : Prop :=
  ∀ (bytes rest : List Byte) (i : Instr), decode bytes = .instr i rest → bytes = encode i ++ rest

/-- The opcode byte alone fixes the length, and whether it is a load at all; 238 bytes are not (30_encoding.md R51, R56, R58).
17 of the opcode values are the spec's general knowledge (D3; log 6). -/
def Obligations.OpcodeByteFixesLengthAndRecognition : Prop :=
  (∀ op : Byte, lengthOf op = if op ∈ opcodesF2 then 2 else if op ∈ opcodesF3 then 3 else 1) ∧
  (∀ op b1 b2 : Byte, (decodeInstr op b1 b2).isSome = true ↔ op ∈ opcodesF2 ∨ op ∈ opcodesF3) ∧
  ((List.range 256).filter fun n => (decodeInstr (BitVec.ofNat 8 n) 0 0).isNone).length = 238

/-- Words written out from 30_encoding.md R56 and R60 decode to the instructions they stand for, in the numbering of
spec/opcode_table.json (first byte lowest). -/
def Obligations.SpecWordsDecodeToTheirInstructions : Prop :=
  decodeTableWord 16 0b0000000010101001 = some (.ldaImm 0x00) ∧
  decodeTableWord 16 0b0001000010110101 = some (.ldaZpX 0x10) ∧
  decodeTableWord 24 0b000100100011010010101101 = some (.ldaAbs 0x1234) ∧
  decodeTableWord 24 0b001000001111111110111001 = some (.ldaAbsY 0x20FF) ∧
  decodeTableWord 16 0b0001000010110001 = some (.ldaIndY 0x10) ∧
  decodeTableWord 16 0b0001000010110110 = some (.ldxZpY 0x10) ∧
  decodeTableWord 24 0b001000001111111110111100 = some (.ldyAbsX 0x20FF) ∧
  decodeTableWord 8 0b11111111 = none

/-! ## One step -/

/-- While the loop is running, a step whose bytes at pc decode to an instruction is that instruction's meaning, and nothing
is added around it (40_fetch_execute_loop.md R67). -/
def Obligations.StepRunsDecodedInstruction : Prop :=
  ∀ (s : State) (c : Int) (i : Instr), s.cyc = some c → 0 < c →
    decodeInstr (s.byteAt s.pc) (s.byteAt (s.pc + 1)) (s.byteAt (s.pc + 2)) = some i →
    step s = exec i s

/-- The machine decodes first and executes then; the spec's `Step()` fetches operands as it goes. From every state, and for
every `STUB_OPCODES`, both leave the same state (40_fetch_execute_loop.md R67). Both follow the spec's decisions D3 (log 6),
D4 to D6 (log 7, 8, 9), D8 (log 2) and D9 (log 10); decoding first is the model's choice (log 21). -/
def Obligations.StepAgreesWithSpecPseudocode : Prop :=
  ∀ (stubs : List Byte) (s : State), runInstruction stubs s = .next (specStep stubs s).state

/-- With no invocation in progress a step changes nothing; when the budget is not positive `execute` returns, its budget is
discarded, and nothing else changes (R21, R66). That a step of the model is one turn of the loop is its choice (log 5). -/
def Obligations.HaltedMachineRunsNothing : Prop :=
  ∀ (stubs : List Byte) (s : State),
    (s.cyc = none → stepWith stubs s = .next s) ∧
    (∀ c : Int, s.cyc = some c → c ≤ 0 → stepWith stubs s = .next { s with cyc := none })

/-- An unrecognized opcode: pc moves by one, one unit is charged, one report is made, and nothing else changes (R120). The
payload of the report is the spec's decision D9 (log 10). -/
def Obligations.UnrecognizedByteIsReportedAndSkipped : Prop :=
  ∀ (stubs : List Byte) (s : State) (c : Int), s.cyc = some c → 0 < c →
    s.byteAt s.pc ∉ opcodesF2 → s.byteAt s.pc ∉ opcodesF3 → s.byteAt s.pc ∉ stubs →
    stepWith stubs s = .next { s with
      pc := BitVec.ofNat 16 (s.pc.toNat + 1)
      cyc := some (c - 1)
      log := s.log ++ [.unknownOpcode (s.byteAt s.pc) s.pc] }

/-- A stub opcode: as an unrecognized one, without the report (R122, the spec's decision D8; log 2). -/
def Obligations.StubByteIsSkippedSilently : Prop :=
  ∀ (stubs : List Byte) (s : State) (c : Int), stubsWf stubs = true → s.cyc = some c → 0 < c →
    s.byteAt s.pc ∈ stubs →
    stepWith stubs s = .next { s with pc := BitVec.ofNat 16 (s.pc.toNat + 1), cyc := some (c - 1) }

/-- Control is sequential: every step leaves pc after the bytes it consumed, mod 65536 (R15, R124). -/
def Obligations.PcMovesPastTheBytesConsumed : Prop :=
  ∀ (stubs : List Byte) (s t : State), runInstruction stubs s = .next t →
    t.pc = BitVec.ofNat 16 (s.pc.toNat + lengthOf (s.byteAt s.pc))

/-- One step makes at most one report, never OutOfRange, and every address it reads is below 65536 (R134, R35, which rest
on the spec's decisions D4 to D6; log 7, 8, 9). What the report holds, the byte at pc and its address, is the spec's decision
D9 (R131; log 10). -/
def Obligations.CoreStaysInRangeAndReportsOnce : Prop :=
  ∀ (stubs : List Byte) (s t : State), stepWith stubs s = .next t →
    (t.log = s.log ∨ t.log = s.log ++ [.unknownOpcode (s.byteAt s.pc) s.pc]) ∧
    ∀ a ∈ readsOf (specStep stubs s).units, a < 65536

/-! ## The eighteen loads: each completes, from every state, in the state its rule gives -/

/-- Immediate loads (R102, R110, R115): the operand goes to the register, 2 units. -/
def Obligations.ImmediateLoadsTakeTheOperand : Prop :=
  ∀ (d : Byte) (s : State),
    exec (.ldaImm d) s = .next (afterLoad .a d 2 2 s) ∧
    exec (.ldxImm d) s = .next (afterLoad .x d 2 2 s) ∧
    exec (.ldyImm d) s = .next (afterLoad .y d 2 2 s)

/-- Zero-page loads (R103, R111, R116): the byte at the zero-page address, 3 units. -/
def Obligations.ZeroPageLoadsReadTheZeroPage : Prop :=
  ∀ (d : Byte) (s : State),
    exec (.ldaZp d) s = .next (afterLoad .a (s.byteAt (zeroPageSum d 0)) 2 3 s) ∧
    exec (.ldxZp d) s = .next (afterLoad .x (s.byteAt (zeroPageSum d 0)) 2 3 s) ∧
    exec (.ldyZp d) s = .next (afterLoad .y (s.byteAt (zeroPageSum d 0)) 2 3 s)

/-- Zero-page indexed loads (R104, R112, R117): the sum wraps inside the zero page (D4; log 7), 3 units (C1; log 20), LDX by
Y and LDY by X (D3; log 6). -/
def Obligations.ZeroPageIndexedLoadsWrapInTheZeroPage : Prop :=
  ∀ (d : Byte) (s : State),
    exec (.ldaZpX d) s = .next (afterLoad .a (s.byteAt (zeroPageSum d s.x)) 2 3 s) ∧
    exec (.ldxZpY d) s = .next (afterLoad .x (s.byteAt (zeroPageSum d s.y)) 2 3 s) ∧
    exec (.ldyZpX d) s = .next (afterLoad .y (s.byteAt (zeroPageSum d s.x)) 2 3 s)

/-- Absolute loads (R105, R113, R118): the byte at the address, 4 units. -/
def Obligations.AbsoluteLoadsReadTheAddress : Prop :=
  ∀ (a : Addr) (s : State),
    exec (.ldaAbs a) s = .next (afterLoad .a (s.byteAt a) 3 4 s) ∧
    exec (.ldxAbs a) s = .next (afterLoad .x (s.byteAt a) 3 4 s) ∧
    exec (.ldyAbs a) s = .next (afterLoad .y (s.byteAt a) 3 4 s)

/-- Absolute indexed loads (R106, R107, R114, R119): the sum wraps at 16 bits (D5; log 8), 4 units and one more when the low
byte of the address plus the offset reaches 256. -/
def Obligations.AbsoluteIndexedLoadsChargePageCrossing : Prop :=
  ∀ (a : Addr) (s : State),
    exec (.ldaAbsX a) s = .next (afterLoad .a (s.byteAt (indexedAddr a s.x)) 3 (4 + crossUnits a s.x) s) ∧
    exec (.ldaAbsY a) s = .next (afterLoad .a (s.byteAt (indexedAddr a s.y)) 3 (4 + crossUnits a s.y) s) ∧
    exec (.ldxAbsY a) s = .next (afterLoad .x (s.byteAt (indexedAddr a s.y)) 3 (4 + crossUnits a s.y) s) ∧
    exec (.ldyAbsX a) s = .next (afterLoad .y (s.byteAt (indexedAddr a s.x)) 3 (4 + crossUnits a s.x) s)

/-- `LDA (zp,X)` (R108): the pointer is at `d + x` inside the zero page, its high byte at the next zero-page address (D6;
log 9), 6 units always (C5; log 20). -/
def Obligations.IndexedIndirectLoadFollowsZeroPagePointer : Prop :=
  ∀ (d : Byte) (s : State),
    exec (.ldaIndX d) s = .next (afterLoad .a (s.byteAt (pointerAt (d + s.x) s)) 2 6 s)

/-- `LDA (zp),Y` (R109): Y is added to the pointer at `d`, mod 65536 (D5, D6; log 8, 9), 5 units and one more on a page
crossing. -/
def Obligations.IndirectIndexedLoadAddsYToPointer : Prop :=
  ∀ (d : Byte) (s : State),
    exec (.ldaIndY d) s =
      .next (afterLoad .a (s.byteAt (indexedAddr (pointerAt d s) s.y)) 2 (5 + crossUnits (pointerAt d s) s.y) s)

/-- `LDA #imm` as R102 gives it, from the bytes in memory: encoding `0xA9 d8`, the operand at `p +16 1` (at `0x0000` when
`p = 0xFFFF`), and the source's scenario: with operand 0, `execute(2)` consumes exactly 2 units and halts. -/
def Obligations.LdaImmediateRunsFromMemory : Prop :=
  (∀ d : Byte, encode (.ldaImm d) = [0xA9, d] ∧ decode [0xA9, d] = .instr (.ldaImm d) []) ∧
  (∀ (stubs : List Byte) (s : State) (c : Int), s.cyc = some c → 0 < c → s.byteAt s.pc = 0xA9 →
    stepWith stubs s =
      .next (afterLoad .a (s.byteAt (BitVec.ofNat 16 ((s.pc.toNat + 1) % 65536))) 2 2 s)) ∧
  (∀ (stubs : List Byte) (s : State), s.byteAt s.pc = 0xA9 → s.byteAt (s.pc + 1) = 0x00 →
    executeLoop stubs 2 s = .next { s with
      a := 0x00, pc := BitVec.ofNat 16 (s.pc.toNat + 2), flags := { s.flags with z := true }, cyc := some 0 })

/-! ## Frames, flags, and what a load reads -/

/-- The frame of all eighteen loads (R101, R28): the other two registers, sp, the five inert flags, the log and every byte of
memory are as before. -/
def Obligations.LoadsLeaveEverythingElseUnchanged : Prop :=
  ∀ (i : Instr) (s t : State), exec i s = .next t →
    (∀ r : Reg, r ≠ targetOf i → t.reg r = s.reg r) ∧
    t.sp = s.sp ∧
    t.flags.c = s.flags.c ∧ t.flags.i = s.flags.i ∧ t.flags.d = s.flags.d ∧ t.flags.b = s.flags.b ∧
    t.flags.v = s.flags.v ∧
    t.log = s.log ∧
    ∀ addr : Nat, t.mem.byteAt addr = s.mem.byteAt addr

/-- `FlagUpdate(v)` by value class (R100): zero sets Z, `0x80` and above sets N, anything else changes nothing; no other
part of the state is touched and nothing is charged. -/
def Obligations.FlagUpdateSetsByValueClass : Prop :=
  ∀ (v : Byte) (s : State),
    (v = 0x00 → flagUpdate v s = { s with flags := { s.flags with z := true } }) ∧
    (0x01 ≤ v.toNat → v.toNat ≤ 0x7F → flagUpdate v s = s) ∧
    (0x80 ≤ v.toNat → flagUpdate v s = { s with flags := { s.flags with n := true } })

/-- Flag writes are selective (R17): a load sets N exactly when bit 7 of the byte now in its target is 1, sets Z exactly when
that byte is 0, clears neither, and writes no other flag; a byte that is no load writes no flag. -/
def Obligations.FlagWritesAreSelective : Prop :=
  (∀ (i : Instr) (s t : State), exec i s = .next t →
    t.flags = { s.flags with
      n := s.flags.n || (t.reg (targetOf i)).getLsbD 7
      z := s.flags.z || decide ((t.reg (targetOf i)).toNat = 0) }) ∧
  (∀ (stubs : List Byte) (s t : State), s.byteAt s.pc ∉ opcodesF2 → s.byteAt s.pc ∉ opcodesF3 →
    runInstruction stubs s = .next t → t.flags = s.flags)

/-- No load reads the register it writes (R12): its old value makes no difference. -/
def Obligations.LoadsNeverReadTheirTarget : Prop :=
  ∀ (i : Instr) (s : State) (v : Byte), exec i (s.setReg (targetOf i) v) = exec i s

/-- No load reads the accumulator, sp, a flag or the log (R12, R13, R18, R22): with others in their place it loads the same
byte, costs the same and goes to the same pc. -/
def Obligations.LoadsReadNoFlagStackPointerOrLog : Prop :=
  ∀ (i : Instr) (s t : State) (a sp : Byte) (f : Flags) (l : List Report), exec i s = .next t →
    exec i { s with a := a, sp := sp, flags := f, log := l } =
      .next { t with
        a := if targetOf i = .a then t.a else a
        sp := sp
        flags := flagsAfterLoad (t.reg (targetOf i)) f
        log := l }

/-- The page-cross predicate (R84) in its equivalent forms: the high byte changes; the low byte plus the offset reaches 256;
the exclusive or with the unreduced sum, too, is nonzero above bit 7. Offset 0 never crosses. -/
def Obligations.PageCrossIsAChangeOfHighByte : Prop :=
  ∀ (base : Addr) (off : Byte),
    (pageCross base off = true ↔ hi (base + zext16 off) ≠ hi base) ∧
    (pageCross base off = true ↔ 256 ≤ base.toNat % 256 + off.toNat) ∧
    (pageCross base off = true ↔ (base.toNat ^^^ (base.toNat + off.toNat)) >>> 8 ≠ 0) ∧
    pageCross base 0 = false

/-- A read that fails abandons a load (R132, the spec's decision D10; log 11): the failing read is charged and reported, and
neither register, flag nor pc is written, whether the data read fails or a source of the operand does. -/
def Obligations.FailedReadAbandonsTheLoad : Prop :=
  ∀ (r : Reg) (addr : Nat) (s : State), 65536 ≤ addr →
    load r (readByte addr) s =
      .failed { s with cyc := s.cyc.map fun c => c - 1, log := s.log ++ [.outOfRange addr] } [.read addr] ∧
    load r (resolveIndX (readByte addr)) s = load r (readByte addr) s ∧
    load r (resolveZpIdx (readByte addr) s.y) s = load r (readByte addr) s

/-! ## Cycle units -/

/-- The reads and idle units of a step, in order, for each mode (R92). It rests on the spec's decisions: the place of an idle
unit D11 (log 12), the opcode values and index registers D3 (log 6), the zero-page sum D4 (log 7), the 16-bit sum D5 (log 8),
the pointer's high byte D6 (log 9), no idle unit for zero-page indexing C1 and a fixed one in `(zp,X)` C5 (log 20). `p`, `p1`, `p2` are the addresses of the instruction's bytes, `d` and `a16` its operand. -/
def Obligations.CycleUnitsFollowTheReadOrderTable : Prop :=
  ∀ (stubs : List Byte) (s : State),
    let op := s.byteAt s.pc
    let p := s.pc.toNat
    let p1 := (s.pc.toNat + 1) % 65536
    let p2 := (s.pc.toNat + 2) % 65536
    let d := s.byteAt (BitVec.ofNat 16 p1)
    let a16 : Addr := BitVec.ofNat 16 (256 * (s.byteAt (BitVec.ofNat 16 p2)).toNat + d.toNat)
    let us := (specStep stubs s).units
    let cross (base : Addr) (off : Byte) : List CycleUnit := if crossUnits base off = 1 then [.idle] else []
    (op ∈ [0xA9, 0xA2, 0xA0] → us = [.read p, .read p1]) ∧
    (op ∈ [0xA5, 0xA6, 0xA4] → us = [.read p, .read p1, .read d.toNat]) ∧
    (op ∈ [0xB5, 0xB4] → us = [.read p, .read p1, .read ((d.toNat + s.x.toNat) % 256)]) ∧
    (op = 0xB6 → us = [.read p, .read p1, .read ((d.toNat + s.y.toNat) % 256)]) ∧
    (op ∈ [0xAD, 0xAE, 0xAC] → us = [.read p, .read p1, .read p2, .read a16.toNat]) ∧
    (op ∈ [0xBD, 0xBC] → us = [.read p, .read p1, .read p2] ++ cross a16 s.x ++ [.read (indexedAddr a16 s.x).toNat]) ∧
    (op ∈ [0xB9, 0xBE] → us = [.read p, .read p1, .read p2] ++ cross a16 s.y ++ [.read (indexedAddr a16 s.y).toNat]) ∧
    (op = 0xA1 → us = [.read p, .read p1, .idle, .read ((d.toNat + s.x.toNat) % 256),
      .read ((d.toNat + s.x.toNat + 1) % 256), .read (pointerAt (d + s.x) s).toNat]) ∧
    (op = 0xB1 → us = [.read p, .read p1, .read d.toNat, .read ((d.toNat + 1) % 256)] ++ cross (pointerAt d s) s.y ++
      [.read (indexedAddr (pointerAt d s) s.y).toNat]) ∧
    (op ∉ opcodesF2 → op ∉ opcodesF3 → us = [.read p])

/-- Every unit is charged once: a step takes from the budget exactly the number of units it consumes, between 1 and 6 of
them, and the byte reads among them are at most 5 (R47, R93, R159). -/
def Obligations.EveryUnitIsChargedOnce : Prop :=
  ∀ (stubs : List Byte) (s t : State), runInstruction stubs s = .next t →
    t.cyc = (s.cyc.map fun c => c - ((specStep stubs s).units.length : Int)) ∧
    1 ≤ (specStep stubs s).units.length ∧ (specStep stubs s).units.length ≤ 6 ∧
    (readsOf (specStep stubs s).units).length ≤ 5

/-! ## The loop and `execute` -/

/-- The budget is tested only between steps and only for being positive (R68): a step runs whenever `cyc >= 1`, and what it
does and what it costs do not depend on how much is left. -/
def Obligations.BudgetDoesNotChangeAnInstruction : Prop :=
  ∀ (stubs : List Byte) (s : State) (c : Int), s.cyc = some c → 1 ≤ c →
    ∃ (t : State) (k : Int), 1 ≤ k ∧ stepWith stubs s = .next t ∧ t.cyc = some (c - k) ∧
      ∀ c' : Int, 1 ≤ c' →
        stepWith stubs { s with cyc := some c' } = .next { t with cyc := some (c' - k) }

/-- `execute(n)` (R66): with `n <= 0` nothing changes; otherwise one instruction runs and the loop goes on with the budget
it left, for as long as that is positive; at the end the budget is discarded. -/
def Obligations.ExecuteRunsWhileTheBudgetIsPositive : Prop :=
  ∀ (stubs : List Byte) (n : Int) (s : State),
    (n ≤ 0 → executeLoop stubs n s = .next { s with cyc := some n } ∧ execute stubs n s = .next { s with cyc := none }) ∧
    (0 < n → ∃ (t : State) (f : Int), runInstruction stubs { s with cyc := some n } = .next t ∧ t.cyc = some f ∧
      executeLoop stubs n s = executeLoop stubs f t ∧ execute stubs n s = execute stubs f t)

/-- The overrun bound (R69): when `execute(n)` returns, `n >= 1`, the final budget is between -5 and 0. -/
def Obligations.ExecuteOverrunsByAtMostFive : Prop :=
  ∀ (stubs : List Byte) (n : Int) (s : State), 1 ≤ n →
    ∃ (t : State) (f : Int), executeLoop stubs n s = .next t ∧ t.cyc = some f ∧ -5 ≤ f ∧ f ≤ 0

/-- `execute(n)`, `n >= 1`, runs at least a sixth of `n` and at most `n` instructions (R70), however many more turns the
loop is allowed: it is the budget that ends it, because every instruction takes at least one unit and at most six. -/
def Obligations.ExecuteRunsBoundedNumberOfSteps : Prop :=
  ∀ (stubs : List Byte) (n : Int) (s : State) (fuel : Nat), 1 ≤ n → n.toNat ≤ fuel →
    n ≤ 6 * (loopSteps stubs fuel { s with cyc := some n } : Int) ∧
    (loopSteps stubs fuel { s with cyc := some n } : Int) ≤ n

/-- `execute(1)` runs exactly one instruction (R72). -/
def Obligations.ExecuteOneRunsOneInstruction : Prop :=
  ∀ (stubs : List Byte) (s : State),
    ∃ t : State, runInstruction stubs { s with cyc := some 1 } = .next t ∧
      execute stubs 1 s = .next { t with cyc := none }

/-- Running the machine step by step, for more steps than the budget has units, is the whole invocation, return included
(R66, R70). That a step of the model is one turn of the loop is its choice (log 5). -/
def Obligations.StepsOfTheMachineMakeUpTheInvocation : Prop :=
  ∀ (n : Int) (s : State) (k : Nat), n.toNat < k →
    Host.Core.run core k { s with cyc := some n } = execute Params.stubOpcodes n s

/-- On freshly reset memory `execute(n)` makes `n` reports of the byte `0x00`, moves pc by `n`, and does nothing else (R126);
for every `RESET_VECTOR`. The payload of a report is the spec's decision D9 (log 10). -/
def Obligations.FreshResetRunReportsZeroBytes : Prop :=
  ∀ (resetVector : Addr) (n : Nat),
    execute [] (n : Int) (State.resetAt resetVector) = .next { State.resetAt resetVector with
      pc := BitVec.ofNat 16 (resetVector.toNat + n)
      log := (List.range n).map fun k => Report.unknownOpcode 0x00 (BitVec.ofNat 16 (resetVector.toNat + k)) }

/-- Memory is constant throughout an invocation (R41, 90_conflicts.md C6). -/
def Obligations.ExecuteNeverWritesMemory : Prop :=
  ∀ (stubs : List Byte) (n : Int) (s t : State), execute stubs n s = .next t →
    ∀ addr : Nat, t.mem.byteAt addr = s.mem.byteAt addr

/-! ## Memory, reset, the host -/

/-- `read` is bounds-checked and discriminated (R32): in range the byte, out of range the failure. -/
def Obligations.ReadIsBoundsChecked : Prop :=
  ∀ (m : Memory) (addr : Nat),
    (addr < 65536 → m.read addr = .byte (m.byteAt addr)) ∧ (65536 ≤ addr → m.read addr = .outOfRange addr)

/-- The host's `write` then `read` (R33, R31, R32, R132): in range, the written byte is stored and read back, every other byte
and all other state is as before, and memory keeps its canonical form; out of range, no memory changes and OutOfRange is
answered. That it is also put on the log is the spec's decision D9 (log 10). -/
def Obligations.HostWriteThenReadGivesTheByte : Prop :=
  ∀ (s : State) (addr : Nat) (v : Byte), s.mem.wf = true →
    (addr < 65536 → ∃ m : Memory, hostWrite addr v s = (.byte v, { s with mem := m }) ∧ m.wf = true ∧
      hostRead addr { s with mem := m } = (.byte v, { s with mem := m }) ∧
      ∀ b : Nat, b ≠ addr → m.byteAt b = s.mem.byteAt b) ∧
    (65536 ≤ addr →
      hostWrite addr v s = (.outOfRange addr, { s with log := s.log ++ [.outOfRange addr] }) ∧
      hostRead addr s = (.outOfRange addr, { s with log := s.log ++ [.outOfRange addr] }))

/-- `init()` (R34), as the host calls it between invocations: every byte reads 0 after it, nothing but memory changes, and
reset leaves the same memory. -/
def Obligations.InitZeroesEveryByte : Prop :=
  ∀ (resetVector : Addr) (s : State), s.cyc = none →
    ∃ m : Memory, hostCall resetVector .init s = some (.nothing, { s with mem := m }) ∧
      (∀ addr : Nat, addr < 65536 → m.read addr = .byte 0x00) ∧
      (hostReset resetVector s).mem = m

/-- Reset (R150): for every `RESET_VECTOR`, the constant itself goes to pc, whatever memory holds, sp is `0xFF`, registers and
flags are 0 and so is every byte of memory; no unit is consumed and no log entry made. -/
def Obligations.ResetEstablishesTheStartState : Prop :=
  ∀ (resetVector : Addr) (s : State),
    let t := hostReset resetVector s
    t.pc = resetVector ∧ t.sp = 0xFF ∧ t.a = 0x00 ∧ t.x = 0x00 ∧ t.y = 0x00 ∧
    t.flags = { c := false, z := false, i := false, d := false, b := false, v := false, n := false } ∧
    (∀ addr : Nat, addr < 65536 → t.mem.read addr = .byte 0x00) ∧
    t.cyc = s.cyc ∧ t.log = s.log

/-- Reset is the host's call (R151): it is not made while an invocation is in progress, it is made from every other state,
and made again at once it leaves the same state. -/
def Obligations.ResetIsIdempotent : Prop :=
  ∀ (resetVector : Addr) (s : State),
    (s.cyc ≠ none → hostCall resetVector .reset s = none) ∧
    (s.cyc = none → ∃ t : State, hostCall resetVector .reset s = some (.nothing, t) ∧
      hostCall resetVector .reset t = some (.nothing, t))

/-- While an invocation is in progress the host has no move; while none is, each of its calls is answered (R72, R40; the
spec's decision D19, log 16). -/
def Obligations.HostMovesOnlyBetweenInvocations : Prop :=
  ∀ (resetVector : Addr) (call : HostCall) (s : State), (hostCall resetVector call s).isSome = true ↔ s.cyc = none

/-- An instruction word placed where the machine fetches is what the very next step runs (R43, R152; log 18). -/
def Obligations.PlacedWordIsTheNextInstruction : Prop :=
  ∀ (s : State) (nbits w : Nat) (i : Instr), s.mem.wf = true → decodeTableWord nbits w = some i →
    step (s.withFetchWord nbits w) = exec i (s.withFetchWord nbits w)

/-! ## Invariants -/

/-- The invariant (canonical memory, sp at `0xFF` by R13, the five inert flags 0 by R18) holds after reset, for every
`RESET_VECTOR`. -/
def Obligations.InvariantHoldsAfterReset : Prop :=
  State.reset.Inv ∧ ∀ resetVector : Addr, (State.resetAt resetVector).Inv

/-- Every step of the machine keeps the invariant, from every state that has it, reachable or not (R13, R18, R28). -/
def Obligations.EveryStepKeepsTheInvariant : Prop :=
  ∀ s t : State, s.Inv → step s = .next t → t.Inv

/-- Every step and every host call, for every `STUB_OPCODES` and `RESET_VECTOR`, keeps the invariant, so every reachable state
has it: sp is `0xFF` for ever (R13) and C, I, D, B and V are 0 (R18). -/
def Obligations.EveryReachableStateHasTheInvariant : Prop :=
  ∀ (resetVector : Addr) (stubs : List Byte) (s : State), Reachable resetVector stubs s → s.Inv

/-- Reset alone clears a flag and writes sp (R18, R150, R157): a step leaves sp, can only raise Z and N and leaves the other
flags; a host call other than reset leaves sp and every flag. -/
def Obligations.OnlyResetClearsAFlagOrWritesSp : Prop :=
  (∀ (stubs : List Byte) (s t : State), stepWith stubs s = .next t →
    t.sp = s.sp ∧
    ∃ z n : Bool, t.flags = { s.flags with z := s.flags.z || z, n := s.flags.n || n }) ∧
  (∀ (resetVector : Addr) (call : HostCall) (reply : Reply) (s t : State), call ≠ .reset →
    hostCall resetVector call s = some (reply, t) → t.sp = s.sp ∧ t.flags = s.flags)
end

