-- ==== Sys2Proof/Laws/Memory.lean ====
section
/-! SUPPORT. What the memory operations do: a read after a write, and the canonical form. -/

namespace Sys2Proof.Machine

theorem Memory.wfFrom_cons {lowest a : Nat} {v : Byte} {m : Memory} :
    Memory.wfFrom lowest ((a, v) :: m) = true ↔
      lowest ≤ a ∧ a < Config.memSize ∧ v ≠ Config.unlistedByte ∧ Memory.wfFrom (a + 1) m = true := by
  simp [Memory.wfFrom, and_assoc]

theorem Memory.wfFrom_mono {m : Memory} {l k : Nat} (h : Memory.wfFrom l m = true) (hk : k ≤ l) :
    Memory.wfFrom k m = true := by
  cases m with
  | nil => rfl
  | cons c m =>
    rw [Memory.wfFrom_cons] at h ⊢
    exact ⟨hk.trans h.1, h.2⟩

/-- Below the lowest listed address nothing is listed. -/
theorem Memory.byteAt_of_lt {m : Memory} {l a : Nat} (h : Memory.wfFrom l m = true) (ha : a < l) :
    m.byteAt a = Config.unlistedByte := by
  induction m generalizing l with
  | nil => rfl
  | cons c m ih =>
    rw [Memory.wfFrom_cons] at h
    have hne : a ≠ c.1 := by omega
    simp only [Memory.byteAt, hne, if_false]
    exact ih h.2.2.2 (by omega)

/-- A write leaves every other address alone (20_memory.md R33). -/
theorem Memory.byteAt_put_of_ne (m : Memory) {a b : Nat} (v : Byte) (h : b ≠ a) :
    (m.put a v).byteAt b = m.byteAt b := by
  induction m with
  | nil => by_cases hv : v = Config.unlistedByte <;> simp [Memory.put, Memory.byteAt, hv, h]
  | cons c m ih =>
    simp only [Memory.put]
    split
    · split
      · rfl
      · simp [Memory.byteAt, h]
    · split
      · subst a
        split <;> simp [Memory.byteAt, h]
      · simp only [Memory.byteAt]
        split
        · rfl
        · exact ih

/-- A read after a write to the same address gives the value written (20_memory.md R33). -/
theorem Memory.byteAt_put_self {m : Memory} {l : Nat} (hm : Memory.wfFrom l m = true) (a : Nat) (v : Byte) :
    (m.put a v).byteAt a = v := by
  induction m generalizing l with
  | nil => by_cases hv : v = Config.unlistedByte <;> simp [Memory.put, Memory.byteAt, hv]
  | cons c m ih =>
    rw [Memory.wfFrom_cons] at hm
    obtain ⟨-, -, -, hm⟩ := hm
    simp only [Memory.put]
    split
    · next hlt =>
      split
      · next hv =>
        have hne : a ≠ c.1 := by omega
        simp only [Memory.byteAt, hne, if_false, hv]
        exact Memory.byteAt_of_lt hm (by omega)
      · simp [Memory.byteAt]
    · split
      · next heq =>
        split
        · next hv =>
          rw [hv]
          exact Memory.byteAt_of_lt hm (by omega)
        · simp [Memory.byteAt]
      · next hne =>
        simp only [Memory.byteAt, hne, if_false]
        exact ih hm

theorem Memory.wfFrom_put {m : Memory} {l a : Nat} (hm : Memory.wfFrom l m = true) (hl : l ≤ a)
    (ha : a < Config.memSize) (v : Byte) : Memory.wfFrom l (m.put a v) = true := by
  induction m generalizing l with
  | nil =>
    simp only [Memory.put]
    split
    · rfl
    · next hv => exact Memory.wfFrom_cons.2 ⟨hl, ha, hv, rfl⟩
  | cons c m ih =>
    have hc := Memory.wfFrom_cons.1 hm
    simp only [Memory.put]
    split
    · next hlt =>
      split
      · exact hm
      · next hv => exact Memory.wfFrom_cons.2 ⟨hl, ha, hv, Memory.wfFrom_cons.2 ⟨hlt, hc.2⟩⟩
    · split
      · next heq =>
        split
        · exact Memory.wfFrom_mono hc.2.2.2 (by omega)
        · next hv => exact Memory.wfFrom_cons.2 ⟨hl, ha, hv, heq ▸ hc.2.2.2⟩
      · exact Memory.wfFrom_cons.2 ⟨hc.1, hc.2.1, hc.2.2.1, ih hc.2.2.2 (by omega)⟩

/-- A write keeps the canonical form. -/
theorem Memory.wf_put {m : Memory} {a : Nat} (hm : m.wf = true) (ha : a < Config.memSize) (v : Byte) :
    (m.put a v).wf = true :=
  Memory.wfFrom_put hm (Nat.zero_le a) ha v

/-- The `write` of the interface keeps the canonical form, when it stores at all. -/
theorem Memory.wf_write {m m' : Memory} {a : Nat} {v w : Byte} (hm : m.wf = true)
    (h : m.write a v = .stored w m') : m'.wf = true := by
  unfold Memory.write at h
  split at h
  · next ha =>
    cases h
    exact Memory.wf_put hm ha v
  · cases h

/-- `init` gives the canonical form, whatever was there. -/
@[simp] theorem Memory.wf_init (m : Memory) : m.init.wf = true := rfl

@[simp] theorem Memory.byteAt_init (m : Memory) (a : Nat) : m.init.byteAt a = 0x00 := rfl

/-- The memory of the reset state has the canonical form. -/
@[simp] theorem Memory.wf_reset (resetVector : Addr) : (State.resetAt resetVector).mem.wf = true := rfl

/-- Every 16-bit address is in range (20_memory.md R35). -/
theorem Memory.read_addr (m : Memory) (a : Addr) : m.read a.toNat = .byte (m.byteAt a.toNat) := by
  have ha : a.toNat < Config.memSize := a.isLt
  simp [Memory.read, ha]

end Sys2Proof.Machine
end

