-- ==== Sys2Proof/Laws/State.lean ====
section
/-! SUPPORT. One lemma for each field of each named update of the state. -/

namespace Sys2Proof.Machine

@[simp] theorem advance_a (s : State) : (s.advance).a = s.a := rfl
@[simp] theorem advance_x (s : State) : (s.advance).x = s.x := rfl
@[simp] theorem advance_y (s : State) : (s.advance).y = s.y := rfl
@[simp] theorem advance_sp (s : State) : (s.advance).sp = s.sp := rfl
@[simp] theorem advance_pc (s : State) : (s.advance).pc = s.pc + 1 := rfl
@[simp] theorem advance_flags (s : State) : (s.advance).flags = s.flags := rfl
@[simp] theorem advance_mem (s : State) : (s.advance).mem = s.mem := rfl
@[simp] theorem advance_cyc (s : State) : (s.advance).cyc = s.cyc := rfl
@[simp] theorem advance_log (s : State) : (s.advance).log = s.log := rfl

@[simp] theorem charge_a (s : State) : (s.charge).a = s.a := rfl
@[simp] theorem charge_x (s : State) : (s.charge).x = s.x := rfl
@[simp] theorem charge_y (s : State) : (s.charge).y = s.y := rfl
@[simp] theorem charge_sp (s : State) : (s.charge).sp = s.sp := rfl
@[simp] theorem charge_pc (s : State) : (s.charge).pc = s.pc := rfl
@[simp] theorem charge_flags (s : State) : (s.charge).flags = s.flags := rfl
@[simp] theorem charge_mem (s : State) : (s.charge).mem = s.mem := rfl
@[simp] theorem charge_cyc (s : State) : (s.charge).cyc = s.cyc.map (· - 1) := rfl
@[simp] theorem charge_log (s : State) : (s.charge).log = s.log := rfl

@[simp] theorem report_a (s : State) (e : Report) : (s.report e).a = s.a := rfl
@[simp] theorem report_x (s : State) (e : Report) : (s.report e).x = s.x := rfl
@[simp] theorem report_y (s : State) (e : Report) : (s.report e).y = s.y := rfl
@[simp] theorem report_sp (s : State) (e : Report) : (s.report e).sp = s.sp := rfl
@[simp] theorem report_pc (s : State) (e : Report) : (s.report e).pc = s.pc := rfl
@[simp] theorem report_flags (s : State) (e : Report) : (s.report e).flags = s.flags := rfl
@[simp] theorem report_mem (s : State) (e : Report) : (s.report e).mem = s.mem := rfl
@[simp] theorem report_cyc (s : State) (e : Report) : (s.report e).cyc = s.cyc := rfl
@[simp] theorem report_log (s : State) (e : Report) : (s.report e).log = s.log ++ [e] := rfl

@[simp] theorem setReg_a_a (s : State) (v : Byte) : (s.setReg .a v).a = v := rfl
@[simp] theorem setReg_a_x (s : State) (v : Byte) : (s.setReg .a v).x = s.x := rfl
@[simp] theorem setReg_a_y (s : State) (v : Byte) : (s.setReg .a v).y = s.y := rfl
@[simp] theorem setReg_a_sp (s : State) (v : Byte) : (s.setReg .a v).sp = s.sp := rfl
@[simp] theorem setReg_a_pc (s : State) (v : Byte) : (s.setReg .a v).pc = s.pc := rfl
@[simp] theorem setReg_a_flags (s : State) (v : Byte) : (s.setReg .a v).flags = s.flags := rfl
@[simp] theorem setReg_a_mem (s : State) (v : Byte) : (s.setReg .a v).mem = s.mem := rfl
@[simp] theorem setReg_a_cyc (s : State) (v : Byte) : (s.setReg .a v).cyc = s.cyc := rfl
@[simp] theorem setReg_a_log (s : State) (v : Byte) : (s.setReg .a v).log = s.log := rfl

@[simp] theorem setReg_x_a (s : State) (v : Byte) : (s.setReg .x v).a = s.a := rfl
@[simp] theorem setReg_x_x (s : State) (v : Byte) : (s.setReg .x v).x = v := rfl
@[simp] theorem setReg_x_y (s : State) (v : Byte) : (s.setReg .x v).y = s.y := rfl
@[simp] theorem setReg_x_sp (s : State) (v : Byte) : (s.setReg .x v).sp = s.sp := rfl
@[simp] theorem setReg_x_pc (s : State) (v : Byte) : (s.setReg .x v).pc = s.pc := rfl
@[simp] theorem setReg_x_flags (s : State) (v : Byte) : (s.setReg .x v).flags = s.flags := rfl
@[simp] theorem setReg_x_mem (s : State) (v : Byte) : (s.setReg .x v).mem = s.mem := rfl
@[simp] theorem setReg_x_cyc (s : State) (v : Byte) : (s.setReg .x v).cyc = s.cyc := rfl
@[simp] theorem setReg_x_log (s : State) (v : Byte) : (s.setReg .x v).log = s.log := rfl

@[simp] theorem setReg_y_a (s : State) (v : Byte) : (s.setReg .y v).a = s.a := rfl
@[simp] theorem setReg_y_x (s : State) (v : Byte) : (s.setReg .y v).x = s.x := rfl
@[simp] theorem setReg_y_y (s : State) (v : Byte) : (s.setReg .y v).y = v := rfl
@[simp] theorem setReg_y_sp (s : State) (v : Byte) : (s.setReg .y v).sp = s.sp := rfl
@[simp] theorem setReg_y_pc (s : State) (v : Byte) : (s.setReg .y v).pc = s.pc := rfl
@[simp] theorem setReg_y_flags (s : State) (v : Byte) : (s.setReg .y v).flags = s.flags := rfl
@[simp] theorem setReg_y_mem (s : State) (v : Byte) : (s.setReg .y v).mem = s.mem := rfl
@[simp] theorem setReg_y_cyc (s : State) (v : Byte) : (s.setReg .y v).cyc = s.cyc := rfl
@[simp] theorem setReg_y_log (s : State) (v : Byte) : (s.setReg .y v).log = s.log := rfl

@[simp] theorem setReg_sp (s : State) (r : Reg) (v : Byte) : (s.setReg r v).sp = s.sp := by cases r <;> rfl
@[simp] theorem setReg_pc (s : State) (r : Reg) (v : Byte) : (s.setReg r v).pc = s.pc := by cases r <;> rfl
@[simp] theorem setReg_flags (s : State) (r : Reg) (v : Byte) : (s.setReg r v).flags = s.flags := by cases r <;> rfl
@[simp] theorem setReg_mem (s : State) (r : Reg) (v : Byte) : (s.setReg r v).mem = s.mem := by cases r <;> rfl
@[simp] theorem setReg_cyc (s : State) (r : Reg) (v : Byte) : (s.setReg r v).cyc = s.cyc := by cases r <;> rfl
@[simp] theorem setReg_log (s : State) (r : Reg) (v : Byte) : (s.setReg r v).log = s.log := by cases r <;> rfl

@[simp] theorem flagUpdate_a (s : State) (v : Byte) : (flagUpdate v s).a = s.a := rfl
@[simp] theorem flagUpdate_x (s : State) (v : Byte) : (flagUpdate v s).x = s.x := rfl
@[simp] theorem flagUpdate_y (s : State) (v : Byte) : (flagUpdate v s).y = s.y := rfl
@[simp] theorem flagUpdate_sp (s : State) (v : Byte) : (flagUpdate v s).sp = s.sp := rfl
@[simp] theorem flagUpdate_pc (s : State) (v : Byte) : (flagUpdate v s).pc = s.pc := rfl
@[simp] theorem flagUpdate_flags (s : State) (v : Byte) : (flagUpdate v s).flags = { s.flags with
      n := if bit7 v then true else s.flags.n
      z := if v = 0x00 then true else s.flags.z } := rfl
@[simp] theorem flagUpdate_mem (s : State) (v : Byte) : (flagUpdate v s).mem = s.mem := rfl
@[simp] theorem flagUpdate_cyc (s : State) (v : Byte) : (flagUpdate v s).cyc = s.cyc := rfl
@[simp] theorem flagUpdate_log (s : State) (v : Byte) : (flagUpdate v s).log = s.log := rfl

@[simp] theorem hostReset_a (s : State) (rv : Addr) : (hostReset rv s).a = 0x00 := rfl
@[simp] theorem hostReset_x (s : State) (rv : Addr) : (hostReset rv s).x = 0x00 := rfl
@[simp] theorem hostReset_y (s : State) (rv : Addr) : (hostReset rv s).y = 0x00 := rfl
@[simp] theorem hostReset_sp (s : State) (rv : Addr) : (hostReset rv s).sp = 0xFF := rfl
@[simp] theorem hostReset_pc (s : State) (rv : Addr) : (hostReset rv s).pc = rv := rfl
@[simp] theorem hostReset_flags (s : State) (rv : Addr) : (hostReset rv s).flags = Flags.clear := rfl
@[simp] theorem hostReset_mem (s : State) (rv : Addr) : (hostReset rv s).mem = [] := rfl
@[simp] theorem hostReset_cyc (s : State) (rv : Addr) : (hostReset rv s).cyc = s.cyc := rfl
@[simp] theorem hostReset_log (s : State) (rv : Addr) : (hostReset rv s).log = s.log := rfl

@[simp] theorem hostInit_a (s : State) : (hostInit s).a = s.a := rfl
@[simp] theorem hostInit_x (s : State) : (hostInit s).x = s.x := rfl
@[simp] theorem hostInit_y (s : State) : (hostInit s).y = s.y := rfl
@[simp] theorem hostInit_sp (s : State) : (hostInit s).sp = s.sp := rfl
@[simp] theorem hostInit_pc (s : State) : (hostInit s).pc = s.pc := rfl
@[simp] theorem hostInit_flags (s : State) : (hostInit s).flags = s.flags := rfl
@[simp] theorem hostInit_mem (s : State) : (hostInit s).mem = [] := rfl
@[simp] theorem hostInit_cyc (s : State) : (hostInit s).cyc = s.cyc := rfl
@[simp] theorem hostInit_log (s : State) : (hostInit s).log = s.log := rfl

@[simp] theorem beginExecute_a (s : State) (n : Int) : (beginExecute n s).a = s.a := rfl
@[simp] theorem beginExecute_x (s : State) (n : Int) : (beginExecute n s).x = s.x := rfl
@[simp] theorem beginExecute_y (s : State) (n : Int) : (beginExecute n s).y = s.y := rfl
@[simp] theorem beginExecute_sp (s : State) (n : Int) : (beginExecute n s).sp = s.sp := rfl
@[simp] theorem beginExecute_pc (s : State) (n : Int) : (beginExecute n s).pc = s.pc := rfl
@[simp] theorem beginExecute_flags (s : State) (n : Int) : (beginExecute n s).flags = s.flags := rfl
@[simp] theorem beginExecute_mem (s : State) (n : Int) : (beginExecute n s).mem = s.mem := rfl
@[simp] theorem beginExecute_cyc (s : State) (n : Int) : (beginExecute n s).cyc = some n := rfl
@[simp] theorem beginExecute_log (s : State) (n : Int) : (beginExecute n s).log = s.log := rfl

@[simp] theorem endExecute_a (s : State) : (endExecute s).a = s.a := rfl
@[simp] theorem endExecute_x (s : State) : (endExecute s).x = s.x := rfl
@[simp] theorem endExecute_y (s : State) : (endExecute s).y = s.y := rfl
@[simp] theorem endExecute_sp (s : State) : (endExecute s).sp = s.sp := rfl
@[simp] theorem endExecute_pc (s : State) : (endExecute s).pc = s.pc := rfl
@[simp] theorem endExecute_flags (s : State) : (endExecute s).flags = s.flags := rfl
@[simp] theorem endExecute_mem (s : State) : (endExecute s).mem = s.mem := rfl
@[simp] theorem endExecute_cyc (s : State) : (endExecute s).cyc = none := rfl
@[simp] theorem endExecute_log (s : State) : (endExecute s).log = s.log := rfl

@[simp] theorem reg_setReg_self (s : State) (r : Reg) (v : Byte) : (s.setReg r v).reg r = v := by cases r <;> rfl

theorem reg_setReg_of_ne (s : State) {r q : Reg} (h : q ≠ r) (v : Byte) : (s.setReg r v).reg q = s.reg q := by
  cases r <;> cases q <;> first | rfl | exact absurd rfl h

@[simp] theorem byteAt_charge (s : State) (addr : Addr) : s.charge.byteAt addr = s.byteAt addr := rfl

@[simp] theorem byteAt_advance (s : State) (addr : Addr) : s.advance.byteAt addr = s.byteAt addr := rfl

end Sys2Proof.Machine
end

