-- ==== Sys2Proof/Laws/Access.lean ====
section
/-! SUPPORT. What each charged primitive does. At a 16-bit address no read fails (20_memory.md R35), so each of these is an
equation; a read at a natural number of 65536 or more fails as R132 says. -/

namespace Sys2Proof.Machine

@[simp] theorem Access.andThen_done {α β : Type} (v : α) (s : State) (us : List CycleUnit) (f : α → State → Access β) :
    (Access.done v s us).andThen f =
      match f v s with
      | .done w t us' => .done w t (us ++ us')
      | .failed t us' => .failed t (us ++ us') := rfl

@[simp] theorem Access.andThen_failed {α β : Type} (s : State) (us : List CycleUnit) (f : α → State → Access β) :
    (Access.failed s us : Access α).andThen f = .failed s us := rfl

@[simp] theorem Access.state_done {α : Type} (v : α) (s : State) (us : List CycleUnit) :
    (Access.done v s us).state = s := rfl

@[simp] theorem Access.units_done {α : Type} (v : α) (s : State) (us : List CycleUnit) :
    (Access.done v s us).units = us := rfl

theorem readByte_addr (a : Addr) (s : State) :
    readByte a.toNat s = .done (s.byteAt a) s.charge [.read a.toNat] := by
  simp [readByte, Memory.read_addr, State.byteAt]

/-- A read that fails (60_exceptions.md R132). -/
theorem readByte_outOfRange {addr : Nat} (h : Config.memSize ≤ addr) (s : State) :
    readByte addr s = .failed (s.charge.report (.outOfRange addr)) [.read addr] := by
  simp [readByte, Memory.read, Nat.not_lt.2 h]

theorem fetchByte_eq (s : State) :
    fetchByte s = .done (s.byteAt s.pc) s.charge.advance [.read s.pc.toNat] := by
  simp [fetchByte, readByte_addr]

theorem fetchOpcode_eq (s : State) :
    fetchOpcode s = .done (s.byteAt s.pc) s.charge.advance [.read s.pc.toNat] := by
  simp [fetchOpcode, readByte_addr]

theorem fetchWord_eq (s : State) :
    fetchWord s = .done (word (s.byteAt (s.pc + 1)) (s.byteAt s.pc)) s.charge.advance.charge.advance
      [.read s.pc.toNat, .read (s.pc + 1).toNat] := by
  simp [fetchWord, fetchByte_eq]

theorem readPtrZp_eq (p : Byte) (s : State) :
    readPtrZp p s = .done (word (s.byteAt (zext16 (p + 1))) (s.byteAt (zext16 p))) s.charge.charge
      [.read (zext16 p).toNat, .read (zext16 (p + 1)).toNat] := by
  simp only [readPtrZp, Access.andThen_done, readByte_addr]
  rfl

theorem idleUnit_eq (s : State) : idleUnit s = .done () s.charge [.idle] := rfl

end Sys2Proof.Machine
end

