-- ==== Sys2Proof/Laws/Operands.lean ====
section
/-! SUPPORT. What each resolver does, for whatever source its operand comes from, and what a load makes of it. -/

namespace Sys2Proof.Machine

theorem decodedByte_eq (d : Byte) (s : State) :
    decodedByte d s = .done d s.charge.advance [.read s.pc.toNat] := by
  simp [decodedByte, fetchByte_eq]

theorem decodedWord_eq (a : Addr) (s : State) :
    decodedWord a s = .done a s.charge.advance.charge.advance [.read s.pc.toNat, .read (s.pc + 1).toNat] := by
  simp [decodedWord, fetchWord_eq]

/-- The state an indexed read leaves: charged for its read, and for the page-cross unit where there is one. -/
theorem readIndexed_eq (base : Addr) (off : Byte) (s : State) :
    readIndexed base off s =
      .done (s.byteAt (base + zext16 off)) (if pageCross base off then s.charge.charge else s.charge)
        ((if pageCross base off then [.idle] else []) ++ [.read (base + zext16 off).toNat]) := by
  unfold readIndexed pageCrossPenalty idleUnit
  split <;> simp only [Access.andThen_done, readByte_addr, byteAt_charge]

section
variable {operand : State → Access Byte} {s t : State} {d : Byte} {us : List CycleUnit}

theorem resolveImm_done (h : operand s = .done d t us) : resolveImm operand s = .done d t us := h

theorem resolveZp_done (h : operand s = .done d t us) :
    resolveZp operand s = .done (t.byteAt (zext16 d)) t.charge (us ++ [.read (zext16 d).toNat]) := by
  simp only [resolveZp, h, Access.andThen_done, readByte_addr]

theorem resolveZpIdx_done (h : operand s = .done d t us) (off : Byte) :
    resolveZpIdx operand off s =
      .done (t.byteAt (zext16 (d + off))) t.charge (us ++ [.read (zext16 (d + off)).toNat]) := by
  simp only [resolveZpIdx, h, Access.andThen_done, readByte_addr]

/-- `p` is the pointer's location and `ea` the pointer (41_addressing_modes.md R90). -/
theorem resolveIndX_done (h : operand s = .done d t us) {p : Byte} (hp : d + t.x = p) {ea : Addr}
    (hea : word (t.byteAt (zext16 (p + 1))) (t.byteAt (zext16 p)) = ea) :
    resolveIndX operand s =
      .done (t.byteAt ea) t.charge.charge.charge.charge
        (us ++ [.idle, .read (zext16 p).toNat, .read (zext16 (p + 1)).toNat, .read ea.toNat]) := by
  subst hea hp
  simp only [resolveIndX, h, Access.andThen_done, idleUnit_eq, readPtrZp_eq, readByte_addr]
  rfl

/-- `base` is the pointer and `off` the value of Y (41_addressing_modes.md R91). -/
theorem resolveIndY_done (h : operand s = .done d t us) {base : Addr}
    (hbase : word (t.byteAt (zext16 (d + 1))) (t.byteAt (zext16 d)) = base) {off : Byte} (hoff : t.y = off) :
    resolveIndY operand s =
      .done (t.byteAt (base + zext16 off))
        (if pageCross base off then t.charge.charge.charge.charge else t.charge.charge.charge)
        (us ++ ([.read (zext16 d).toNat, .read (zext16 (d + 1)).toNat] ++
          ((if pageCross base off then [.idle] else []) ++ [.read (base + zext16 off).toNat]))) := by
  subst hbase hoff
  rw [resolveIndY, h]
  simp only [Access.andThen_done, readPtrZp_eq, charge_y, readIndexed_eq, byteAt_charge]
  rfl

end

section
variable {operand : State → Access Addr} {s t : State} {a : Addr} {us : List CycleUnit}

theorem resolveAbs_done (h : operand s = .done a t us) :
    resolveAbs operand s = .done (t.byteAt a) t.charge (us ++ [.read a.toNat]) := by
  simp [resolveAbs, h, readByte_addr]

theorem resolveAbsIdx_done (h : operand s = .done a t us) (off : Byte) :
    resolveAbsIdx operand off s =
      .done (t.byteAt (a + zext16 off)) (if pageCross a off then t.charge.charge else t.charge)
        (us ++ ((if pageCross a off then [.idle] else []) ++ [.read (a + zext16 off).toNat])) := by
  rw [resolveAbsIdx, h, Access.andThen_done, readIndexed_eq]

end

/-- A load whose resolver is done stores the byte and updates the flags (42_load_family.md R101). -/
theorem load_done {resolve : State → Access Byte} {s t : State} {v : Byte} {us : List CycleUnit}
    (h : resolve s = .done v t us) (r : Reg) : load r resolve s = .done () (flagUpdate v (t.setReg r v)) us := by
  simp [load, h]

/-- A load whose resolver failed is abandoned (60_exceptions.md R132). -/
theorem load_failed {resolve : State → Access Byte} {s t : State} {us : List CycleUnit}
    (h : resolve s = .failed t us) (r : Reg) : load r resolve s = .failed t us := by
  simp [load, h]

/-- A whole load instruction is its opcode fetch and its handler (42_load_family.md R101). -/
theorem loadInstr_done {resolve : State → Access Byte} {s t : State} {v : Byte} {us : List CycleUnit}
    (h : resolve s.charge.advance = .done v t us) (r : Reg) :
    loadInstr r resolve s = .done () (flagUpdate v (t.setReg r v)) (.read s.pc.toNat :: us) := by
  rw [loadInstr, fetchOpcode_eq, Access.andThen_done, load_done h]
  rfl

end Sys2Proof.Machine
end

