-- ==== Sys2Proof/Laws/Loop.lean ====
section
/-! SUPPORT. What the loop does: an opcode without a handler, one instruction, one turn. -/

namespace Sys2Proof.Machine

/-- What a byte without a handler does, stub or not (43_unrecognized_opcodes.md R120, R122). -/
theorem otherOpcode_eq (stubs : List Byte) (s : State) :
    otherOpcode stubs s =
      .done () (if s.byteAt s.pc ∈ stubs then s.charge.advance
        else s.charge.advance.report (.unknownOpcode (s.byteAt s.pc) s.pc)) [.read s.pc.toNat] := by
  rw [otherOpcode, fetchOpcode_eq, Access.andThen_done]
  by_cases h : s.byteAt s.pc ∈ stubs
  · simp only [if_pos h]; rfl
  · simp only [if_neg h]; rfl

theorem runInstruction_some {s : State} {i : Instr} (h : s.instrAt = some i) (stubs : List Byte) :
    runInstruction stubs s = exec i s := by
  rw [runInstruction, h]

theorem runInstruction_none {s : State} (h : s.instrAt = none) (stubs : List Byte) :
    runInstruction stubs s =
      .next (if s.byteAt s.pc ∈ stubs then s.charge.advance
        else s.charge.advance.report (.unknownOpcode (s.byteAt s.pc) s.pc)) := by
  rw [runInstruction, h, completes, otherOpcode_eq]
  rfl

theorem stepWith_of_pos {s : State} {c : Int} (hc : s.cyc = some c) (h : 0 < c) (stubs : List Byte) :
    stepWith stubs s = runInstruction stubs s := by
  simp [stepWith, hc, h]

theorem stepWith_of_exhausted {s : State} {c : Int} (hc : s.cyc = some c) (h : ¬ 0 < c) (stubs : List Byte) :
    stepWith stubs s = .next (endExecute s) := by
  simp [stepWith, hc, h]

theorem stepWith_of_none {s : State} (hc : s.cyc = none) (stubs : List Byte) : stepWith stubs s = .next s := by
  simp [stepWith, hc]

theorem running_iff {s : State} : s.running = true ↔ ∃ c : Int, s.cyc = some c ∧ 0 < c := by
  unfold State.running
  cases s.cyc <;> simp

end Sys2Proof.Machine
end

