-- ==== Sys2Proof/Laws/PerInstr.lean ====
section
/-! SUPPORT. One lemma for each instruction: its encoding starts with an opcode byte of the table and is as long as that byte
says (30_encoding.md R50, R51). -/

namespace Sys2Proof.Laws.EncodedForm

/-- The bytes of `i` start with an opcode whose length is theirs, and the decoder takes that opcode for a load. -/
def Statement (i : Instr) : Prop :=
  ∃ (op : Byte) (operands : List Byte),
    encode i = op :: operands ∧ operands.length + 1 = lengthOf op ∧ (formOf op).isSome = true

theorem ldaImm (d8 : Byte) : Statement (.ldaImm d8) := ⟨0xA9, _, rfl, rfl, rfl⟩

theorem ldaZp (d8 : Byte) : Statement (.ldaZp d8) := ⟨0xA5, _, rfl, rfl, rfl⟩

theorem ldaZpX (d8 : Byte) : Statement (.ldaZpX d8) := ⟨0xB5, _, rfl, rfl, rfl⟩

theorem ldaAbs (a16 : Addr) : Statement (.ldaAbs a16) := ⟨0xAD, _, rfl, rfl, rfl⟩

theorem ldaAbsX (a16 : Addr) : Statement (.ldaAbsX a16) := ⟨0xBD, _, rfl, rfl, rfl⟩

theorem ldaAbsY (a16 : Addr) : Statement (.ldaAbsY a16) := ⟨0xB9, _, rfl, rfl, rfl⟩

theorem ldaIndX (d8 : Byte) : Statement (.ldaIndX d8) := ⟨0xA1, _, rfl, rfl, rfl⟩

theorem ldaIndY (d8 : Byte) : Statement (.ldaIndY d8) := ⟨0xB1, _, rfl, rfl, rfl⟩

theorem ldxImm (d8 : Byte) : Statement (.ldxImm d8) := ⟨0xA2, _, rfl, rfl, rfl⟩

theorem ldxZp (d8 : Byte) : Statement (.ldxZp d8) := ⟨0xA6, _, rfl, rfl, rfl⟩

theorem ldxZpY (d8 : Byte) : Statement (.ldxZpY d8) := ⟨0xB6, _, rfl, rfl, rfl⟩

theorem ldxAbs (a16 : Addr) : Statement (.ldxAbs a16) := ⟨0xAE, _, rfl, rfl, rfl⟩

theorem ldxAbsY (a16 : Addr) : Statement (.ldxAbsY a16) := ⟨0xBE, _, rfl, rfl, rfl⟩

theorem ldyImm (d8 : Byte) : Statement (.ldyImm d8) := ⟨0xA0, _, rfl, rfl, rfl⟩

theorem ldyZp (d8 : Byte) : Statement (.ldyZp d8) := ⟨0xA4, _, rfl, rfl, rfl⟩

theorem ldyZpX (d8 : Byte) : Statement (.ldyZpX d8) := ⟨0xB4, _, rfl, rfl, rfl⟩

theorem ldyAbs (a16 : Addr) : Statement (.ldyAbs a16) := ⟨0xAC, _, rfl, rfl, rfl⟩

theorem ldyAbsX (a16 : Addr) : Statement (.ldyAbsX a16) := ⟨0xBC, _, rfl, rfl, rfl⟩

end Sys2Proof.Laws.EncodedForm
end

