-- ==== Sys2Proof/Tests/Slice0.lean ====
section
/-! SUPPORT. Tests. The expected results are those of spec/95_test_vectors.md (the vector is named), or words written out bit
by bit from 30_encoding.md R56. After them, a witness for the hypotheses of each statement that has some. -/

namespace Sys2Proof.Tests

open Sys2Proof.Machine

/-! ## Helpers -/

/-- A start state of spec/95_test_vectors.md: the reset state with pc and memory given, during `execute(1)`. -/
def start (pc : Addr) (m : Memory) : State := { State.reset with pc := pc, mem := m, cyc := some 1 }

/-- What `f` sees of the next state; `none` where there is none. -/
def seen {α : Type} (o : Host.Outcome State Fault Refusal) (f : State → α) : Option α :=
  match o with
  | .next t => some (f t)
  | .fault _ => none
  | .refused _ => none

/-- A, pc, N, Z and the final budget, which is 1 less the units. -/
def viewA (t : State) : Byte × Addr × Bool × Bool × Option Int := (t.a, t.pc, t.flags.n, t.flags.z, t.cyc)

/-- X, pc, N, Z and the final budget. -/
def viewX (t : State) : Byte × Addr × Bool × Bool × Option Int := (t.x, t.pc, t.flags.n, t.flags.z, t.cyc)

/-- Y, pc, N, Z and the final budget. -/
def viewY (t : State) : Byte × Addr × Bool × Bool × Option Int := (t.y, t.pc, t.flags.n, t.flags.z, t.cyc)

/-! ## Well-formedness: the check refuses an ill-formed term -/

/-- `STUB_OPCODES` must not contain a load opcode (R122): the smoke test. -/
theorem test_stubs_with_load_opcode_refused : stubsWf [0x85, 0xA9] = false := by decide

theorem test_store_stubs_accepted : stubsWf [0x85, 0x8D] = true := by decide

/-- Instructions have no ill-formed term (R58): the extreme operands are legal. -/
theorem test_extreme_operands_wf : (Instr.ldaImm 0xFF).wf = true ∧ (Instr.ldyAbsX 0xFFFF).wf = true := by decide

/-! ## Decoding: a word of every row, bit by bit from R56 -/

theorem test_decode_ldaImm : decode [0b10101001, 0b10010110, 0x00] = .instr (.ldaImm 0x96) [0x00] := by decide

theorem test_decode_ldaZp : decode [0b10100101, 0b10010110, 0x00] = .instr (.ldaZp 0x96) [0x00] := by decide

theorem test_decode_ldaZpX : decode [0b10110101, 0b10010110, 0x00] = .instr (.ldaZpX 0x96) [0x00] := by decide

theorem test_decode_ldaAbs : decode [0b10101101, 0b00110100, 0b10010010] = .instr (.ldaAbs 0x9234) [] := by decide

theorem test_decode_ldaAbsX : decode [0b10111101, 0b00110100, 0b10010010] = .instr (.ldaAbsX 0x9234) [] := by decide

theorem test_decode_ldaAbsY : decode [0b10111001, 0b00110100, 0b10010010] = .instr (.ldaAbsY 0x9234) [] := by decide

theorem test_decode_ldaIndX : decode [0b10100001, 0b10010110, 0x00] = .instr (.ldaIndX 0x96) [0x00] := by decide

theorem test_decode_ldaIndY : decode [0b10110001, 0b10010110, 0x00] = .instr (.ldaIndY 0x96) [0x00] := by decide

theorem test_decode_ldxImm : decode [0b10100010, 0b10010110, 0x00] = .instr (.ldxImm 0x96) [0x00] := by decide

theorem test_decode_ldxZp : decode [0b10100110, 0b10010110, 0x00] = .instr (.ldxZp 0x96) [0x00] := by decide

theorem test_decode_ldxZpY : decode [0b10110110, 0b10010110, 0x00] = .instr (.ldxZpY 0x96) [0x00] := by decide

theorem test_decode_ldxAbs : decode [0b10101110, 0b00110100, 0b10010010] = .instr (.ldxAbs 0x9234) [] := by decide

theorem test_decode_ldxAbsY : decode [0b10111110, 0b00110100, 0b10010010] = .instr (.ldxAbsY 0x9234) [] := by decide

theorem test_decode_ldyImm : decode [0b10100000, 0b10010110, 0x00] = .instr (.ldyImm 0x96) [0x00] := by decide

theorem test_decode_ldyZp : decode [0b10100100, 0b10010110, 0x00] = .instr (.ldyZp 0x96) [0x00] := by decide

theorem test_decode_ldyZpX : decode [0b10110100, 0b10010110, 0x00] = .instr (.ldyZpX 0x96) [0x00] := by decide

theorem test_decode_ldyAbs : decode [0b10101100, 0b00110100, 0b10010010] = .instr (.ldyAbs 0x9234) [] := by decide

theorem test_decode_ldyAbsX : decode [0b10111100, 0b00110100, 0b10010010] = .instr (.ldyAbsX 0x9234) [] := by decide

/-- Vector U4: the fourteen bytes of `0xA0..0xBF` that are not loads, and the source's example `0xFF`. -/
theorem test_decode_unrecognized :
    [0xA3, 0xA7, 0xA8, 0xAA, 0xAB, 0xAF, 0xB0, 0xB2, 0xB3, 0xB7, 0xB8, 0xBA, 0xBB, 0xBF, 0xFF, 0x00, 0xEA].all
      (fun op => decide (decode [op, 0x11] = .unrecognized op [0x11])) = true := by decide

theorem test_decode_truncated :
    decode [] = .truncated ∧ decode [0xA9] = .truncated ∧ decode [0xAD, 0x34] = .truncated := by decide

theorem test_encode : encode (.ldaAbs 0x1234) = [0xAD, 0x34, 0x12] ∧ encode (.ldaIndX 0x10) = [0xA1, 0x10] := by decide

/-- Operand bits above the word's own are 0. -/
theorem test_decodeTableWord :
    decodeTableWord 16 0xFF10B5 = some (.ldaZpX 0x10) ∧ decodeTableWord 8 0x34AD = some (.ldaAbs 0x0000) ∧
    decodeTableWord 24 0x1234AD = some (.ldaAbs 0x1234) := by decide

/-! ## One step of each instruction (spec/95_test_vectors.md, sections 2.1 to 2.4) -/

/-- Vector A1, F1. -/
theorem test_ldaImm_sets_zero :
    seen (step (start 0x0200 [(0x0200, 0xA9)])) viewA =
      some (0x00, 0x0202, false, true, some (-1)) := by decide

/-- Vector F3. -/
theorem test_ldaImm_keeps_stale_flags :
    seen (step { start 0x0200 [(0x0200, 0xA9), (0x0201, 0x7F)] with flags := { Flags.clear with n := true, z := true } }) viewA =
      some (0x7F, 0x0202, true, true, some (-1)) := by decide

/-- Vector A2. -/
theorem test_ldaZp_plain :
    seen (step (start 0x0200 [(0x0010, 0x7F), (0x0200, 0xA5), (0x0201, 0x10)])) viewA =
      some (0x7F, 0x0202, false, false, some (-2)) := by decide

/-- Vector A3. -/
theorem test_ldaZp_top_of_page :
    seen (step (start 0x0200 [(0x00FF, 0x80), (0x0200, 0xA5), (0x0201, 0xFF)])) viewA =
      some (0x80, 0x0202, true, false, some (-2)) := by decide

/-- Vector A4. -/
theorem test_ldaZpX_no_extra_unit :
    seen (step { start 0x0200 [(0x008F, 0x80), (0x0200, 0xB5), (0x0201, 0x80)] with x := 0x0F }) viewA =
      some (0x80, 0x0202, true, false, some (-2)) := by decide

/-- Vector A5. -/
theorem test_ldaZpX_wraps :
    seen (step { start 0x0200 [(0x0001, 0x33), (0x0101, 0x44), (0x0200, 0xB5), (0x0201, 0xFF)] with x := 0x02 }) viewA =
      some (0x33, 0x0202, false, false, some (-2)) := by decide

/-- Vector A6, with another byte where a big-endian operand would point. -/
theorem test_ldaAbs_little_endian :
    seen (step (start 0x0200 [(0x0200, 0xAD), (0x0201, 0x34), (0x0202, 0x12), (0x3412, 0x55)])) viewA =
      some (0x00, 0x0203, false, true, some (-3)) := by decide

/-- Vector W2. -/
theorem test_ldaAbs_straddles_top :
    seen (step (start 0xFFFE [(0x0000, 0x20), (0x2010, 0x99), (0xFFFE, 0xAD), (0xFFFF, 0x10)])) viewA =
      some (0x99, 0x0001, true, false, some (-3)) := by decide

/-- Vector A7. -/
theorem test_ldaAbsX_crosses :
    seen (step { start 0x0200 [(0x0200, 0xBD), (0x0201, 0xFF), (0x0202, 0x20), (0x2100, 0x42)] with x := 0x01 }) viewA =
      some (0x42, 0x0203, false, false, some (-4)) := by decide

/-- Vector A9. -/
theorem test_ldaAbsX_wraps :
    seen (step { start 0x0200 [(0x0000, 0x5A), (0x0200, 0xBD), (0x0201, 0xFF), (0x0202, 0xFF)] with x := 0x01 }) viewA =
      some (0x5A, 0x0203, false, false, some (-4)) := by decide

/-- Vector A11. -/
theorem test_ldaAbsY_no_crossing :
    seen (step { start 0x0200 [(0x0200, 0xB9), (0x0202, 0x30), (0x30FF, 0x01)] with y := 0xFF }) viewA =
      some (0x01, 0x0203, false, false, some (-3)) := by decide

/-- Vector A12. -/
theorem test_ldaAbsY_unsigned_offset :
    seen (step { start 0x0200 [(0x0200, 0xB9), (0x0201, 0xFF), (0x0202, 0x20), (0x21FE, 0x91)] with y := 0xFF }) viewA =
      some (0x91, 0x0203, true, false, some (-4)) := by decide

/-- Vector A14. -/
theorem test_ldaIndX_location_wraps :
    seen (step { start 0x0200 [(0x0011, 0x40), (0x0200, 0xA1), (0x0201, 0xF0), (0x4000, 0x12)] with x := 0x20 }) viewA =
      some (0x12, 0x0202, false, false, some (-5)) := by decide

/-- Vector A15. -/
theorem test_ldaIndX_pointer_wraps :
    seen (step { start 0x0200 [(0x0000, 0x12), (0x00FF, 0x34), (0x0100, 0x77), (0x0200, 0xA1), (0x0201, 0xFE), (0x1234, 0x0A), (0x7734, 0x0B)] with x := 0x01 }) viewA =
      some (0x0A, 0x0202, false, false, some (-5)) := by decide

/-- Vector A16. -/
theorem test_ldaIndY_crosses :
    seen (step { start 0x0200 [(0x0010, 0xF0), (0x0011, 0x30), (0x0200, 0xB1), (0x0201, 0x10), (0x3110, 0x55)] with y := 0x20 }) viewA =
      some (0x55, 0x0202, false, false, some (-5)) := by decide

/-- Vector A18. -/
theorem test_ldaIndY_pointer_wraps :
    seen (step { start 0x0200 [(0x0000, 0x80), (0x0100, 0x90), (0x0200, 0xB1), (0x0201, 0xFF), (0x8001, 0xC3), (0x9001, 0xC4)] with y := 0x01 }) viewA =
      some (0xC3, 0x0202, true, false, some (-4)) := by decide

/-- Vector X1. -/
theorem test_ldxImm_plain :
    seen (step (start 0x0200 [(0x0200, 0xA2), (0x0201, 0x01)])) viewX =
      some (0x01, 0x0202, false, false, some (-1)) := by decide

/-- Vector F4 with target X. -/
theorem test_ldxImm_keeps_stale_zero :
    seen (step { start 0x0200 [(0x0200, 0xA2), (0x0201, 0xFF)] with flags := { Flags.clear with n := false, z := true } }) viewX =
      some (0xFF, 0x0202, true, true, some (-1)) := by decide

/-- Vector X2. -/
theorem test_ldxZp_negative :
    seen (step (start 0x0200 [(0x0040, 0xFF), (0x0200, 0xA6), (0x0201, 0x40)])) viewX =
      some (0xFF, 0x0202, true, false, some (-2)) := by decide

/-- Vector X3. -/
theorem test_ldxZpY_wraps :
    seen (step { start 0x0200 [(0x0110, 0x66), (0x0200, 0xB6), (0x0201, 0xF0)] with y := 0x20, x := 0x55 }) viewX =
      some (0x00, 0x0202, false, true, some (-2)) := by decide

/-- Vector X4. -/
theorem test_ldxAbs_plain :
    seen (step (start 0x0200 [(0x0200, 0xAE), (0x0202, 0x80), (0x8000, 0x33)])) viewX =
      some (0x33, 0x0203, false, false, some (-3)) := by decide

/-- Vector X5. -/
theorem test_ldxAbsY_crosses :
    seen (step { start 0x0200 [(0x0200, 0xBE), (0x0201, 0x80), (0x0202, 0x12), (0x1300, 0x07)] with y := 0x80 }) viewX =
      some (0x07, 0x0203, false, false, some (-4)) := by decide

/-- Vector X6. -/
theorem test_ldxAbsY_indexes_by_y :
    seen (step { start 0x0200 [(0x0200, 0xBE), (0x0202, 0x10), (0x1005, 0x66), (0x1009, 0x67)] with x := 0x09, y := 0x05 }) viewX =
      some (0x66, 0x0203, false, false, some (-3)) := by decide

/-- Vector Y1. -/
theorem test_ldyImm_plain :
    seen (step (start 0x0200 [(0x0200, 0xA0), (0x0201, 0x20)])) viewY =
      some (0x20, 0x0202, false, false, some (-1)) := by decide

/-- Vector Y2. -/
theorem test_ldyZp_address_zero :
    seen (step (start 0x0200 [(0x0000, 0x80), (0x0200, 0xA4)])) viewY =
      some (0x80, 0x0202, true, false, some (-2)) := by decide

/-- Vector Y3. -/
theorem test_ldyZpX_wraps :
    seen (step { start 0x0200 [(0x0000, 0x10), (0x0200, 0xB4), (0x0201, 0x01)] with x := 0xFF }) viewY =
      some (0x10, 0x0202, false, false, some (-2)) := by decide

/-- Vector Y4. -/
theorem test_ldyAbs_top_address :
    seen (step (start 0x0200 [(0x0200, 0xAC), (0x0201, 0xFF), (0x0202, 0xFF)])) viewY =
      some (0x00, 0x0203, false, true, some (-3)) := by decide

/-- Vector Y5. -/
theorem test_ldyAbsX_wraps :
    seen (step { start 0x0200 [(0x0000, 0x81), (0x0200, 0xBC), (0x0201, 0xFF), (0x0202, 0xFF)] with x := 0x01 }) viewY =
      some (0x81, 0x0203, true, false, some (-4)) := by decide

/-- Vector Y6. -/
theorem test_ldyAbsX_indexes_by_x :
    seen (step { start 0x0200 [(0x0200, 0xBC), (0x0202, 0x10), (0x1005, 0x66), (0x1009, 0x67)] with x := 0x09, y := 0x05 }) viewY =
      some (0x67, 0x0203, false, false, some (-3)) := by decide

/-! ## Bytes that are no load, the loop, the host (sections 2.5 to 2.9) -/

/-- Vector U3: at the top of memory, pc wraps. -/
theorem test_unrecognized_wraps :
    seen (step (start 0xFFFF [(0xFFFF, 0x02)])) id =
      some { start 0x0000 [(0xFFFF, 0x02)] with cyc := some 0, log := [.unknownOpcode 0x02 0xFFFF] } := by decide

/-- Vector U5, and the default beside it: the same byte as a stub and as an unrecognized opcode. -/
theorem test_stub_is_silent :
    seen (stepWith [0x85] (start 0x0200 [(0x0200, 0x85)])) (fun t => (t.pc, t.log)) = some (0x0201, []) ∧
    seen (step (start 0x0200 [(0x0200, 0x85)])) (fun t => (t.pc, t.log)) =
      some (0x0201, [.unknownOpcode 0x85 0x0200]) := by decide

/-- Scenario S9 of the source: `0xFF` at the reset vector. -/
theorem test_source_unknown_opcode :
    seen (step (start 0xFFFC [(0xFFFC, 0xFF)])) id =
      some { start 0xFFFD [(0xFFFC, 0xFF)] with cyc := some 0, log := [.unknownOpcode 0xFF 0xFFFC] } := by decide

/-- Vectors B1 and B2: a budget that is not positive runs nothing, and the step after it is the return. -/
theorem test_no_budget_no_instruction :
    seen (executeLoop [] (-3) State.reset) id = some (beginExecute (-3) State.reset) ∧
    seen (step (beginExecute 0 State.reset)) id = some State.reset := by decide

/-- Vectors B4 and B5: budget 2 runs one instruction, budget 3 a second one, which overruns. -/
theorem test_budget_is_not_checked_ahead :
    seen (executeLoop [] 2 (start 0x0200 [(0x0200, 0xA9), (0x0201, 0x01), (0x0202, 0xA9), (0x0203, 0x02)]))
      (fun t => (t.a, t.cyc)) = some (0x01, some 0) ∧
    seen (executeLoop [] 3 (start 0x0200 [(0x0200, 0xA9), (0x0201, 0x01), (0x0202, 0xA9), (0x0203, 0x02)]))
      (fun t => (t.a, t.cyc)) = some (0x02, some (-1)) := by decide

/-- The read order of vector A16 (R92): opcode, operand, pointer low, pointer high, idle, data. -/
theorem test_read_order_indY_crossing :
    (specStep [] { start 0x0200 [(0x0010, 0xF0), (0x0011, 0x30), (0x0200, 0xB1), (0x0201, 0x10)] with y := 0x20 }).units =
      [.read 0x0200, .read 0x0201, .read 0x0010, .read 0x0011, .idle, .read 0x3110] := by decide

/-- Section 2.8: the page-cross table. -/
theorem test_page_cross_table :
    [((0x20FF : Addr), (0x01 : Byte)), (0x2001, 0xFF), (0x30F0, 0x20), (0xFFFF, 0x01), (0x00FF, 0x02)].all
      (fun p => pageCross p.1 p.2) = true ∧
    [((0x2000 : Addr), (0x01 : Byte)), (0x2000, 0xFF), (0x30F0, 0x0F), (0x1234, 0x00)].any
      (fun p => pageCross p.1 p.2) = false := by decide

/-- Vectors M1 to M4: the ends of memory, and just beyond. -/
theorem test_memory_bounds :
    (hostWrite 65535 0xCD State.reset).2.mem.read 65535 = .byte 0xCD ∧
    hostWrite 65536 0x01 State.reset = (.outOfRange 65536, State.reset.report (.outOfRange 65536)) := by decide

/-- Vector M5, and the canonical form: writing 0 unlists an address. -/
theorem test_write_zero_unlists :
    Memory.put [(0x0005, 0x07)] 0x0005 0x00 = [] ∧ Memory.put [(0x0005, 0x07)] 0x0002 0x09 = [(0x0002, 0x09), (0x0005, 0x07)] := by
  decide

/-- Vector M6: reset from a state that has everything set, whose log stays (D9). -/
theorem test_reset_clears :
    hostReset 0xFFFC { start 0x0200 [(0x0001, 0xFF)] with
      a := 0x01, x := 0x02, sp := 0x00, flags := { Flags.clear with n := true, i := true }, cyc := none,
      log := [.outOfRange 65536] } = { State.reset with log := [.outOfRange 65536] } := by decide

/-- The display codes of R133. -/
theorem test_report_codes : (Report.outOfRange 65536).code = 1 ∧ (Report.unknownOpcode 0xFF 0x0000).code = 2 := by decide

/-- A word placed in the reset state is what the next step runs: `LDA $1234` (log 18). -/
theorem test_withFetchWord_runs :
    seen (step (State.reset.withFetchWord 24 0x1234AD)) viewA = some (0x00, 0xFFFF, false, true, some (-3)) := by decide

/-! ## Witnesses: the hypotheses of the statements can be met -/

theorem witness_decode_gives_instruction : decode [0xA9, 0x42, 0x99] = .instr (.ldaImm 0x42) [0x99] := by decide

/-- For `StepRunsDecodedInstruction`, `LdaImmediateRunsFromMemory` (second and third part),
`BudgetDoesNotChangeAnInstruction`: a running state at `LDA #$00`, its operand at `0x0000`. -/
theorem witness_running_lda :
    (start 0xFFFF [(0xFFFF, 0xA9)]).cyc = some 1 ∧
    (start 0xFFFF [(0xFFFF, 0xA9)]).byteAt 0xFFFF = 0xA9 ∧ (start 0xFFFF [(0xFFFF, 0xA9)]).byteAt (0xFFFF + 1) = 0x00 ∧
    (start 0xFFFF [(0xFFFF, 0xA9)]).instrAt = some (.ldaImm 0x00) := by decide

/-- For `HaltedMachineRunsNothing`: both clauses, the second at its boundary. -/
theorem witness_halted : State.reset.cyc = none ∧ (beginExecute 0 State.reset).cyc = some 0 ∧ (0 : Int) ≤ 0 := by decide

/-- For `UnrecognizedByteIsReportedAndSkipped`, and the second part of `FlagWritesAreSelective`. -/
theorem witness_unrecognized :
    (start 0x0200 [(0x0200, 0xFF)]).byteAt 0x0200 ∉ opcodesF2 ∧ (start 0x0200 [(0x0200, 0xFF)]).byteAt 0x0200 ∉ opcodesF3 ∧
    (start 0x0200 [(0x0200, 0xFF)]).byteAt 0x0200 ∉ Params.stubOpcodes ∧
    seen (runInstruction [] (start 0x0200 [(0x0200, 0xFF)])) id =
      some { start 0x0201 [(0x0200, 0xFF)] with cyc := some 0, log := [.unknownOpcode 0xFF 0x0200] } := by decide

/-- For `StubByteIsSkippedSilently`. -/
theorem witness_stub :
    stubsWf [0x85] = true ∧ (start 0x0200 [(0x0200, 0x85)]).byteAt 0x0200 ∈ [(0x85 : Byte)] ∧
    (start 0x0200 [(0x0200, 0x85)]).cyc = some 1 := by decide

/-- For the statements whose hypothesis is that `exec`, `runInstruction`, `stepWith` or `step` answers a next state
(`LoadsLeaveEverythingElseUnchanged`, `FlagWritesAreSelective`, `LoadsReadNoFlagStackPointerOrLog`,
`PcMovesPastTheBytesConsumed`, `CoreStaysInRangeAndReportsOnce`, `EveryUnitIsChargedOnce`, `OnlyResetClearsAFlagOrWritesSp`). -/
theorem witness_next_state :
    seen (exec (.ldaImm 0x80) (start 0x0200 [(0x0200, 0xA9), (0x0201, 0x80)])) id =
      some (afterLoad .a 0x80 2 2 (start 0x0200 [(0x0200, 0xA9), (0x0201, 0x80)])) ∧
    seen (runInstruction [] (start 0x0200 [(0x0200, 0xA9), (0x0201, 0x80)])) id =
      some (afterLoad .a 0x80 2 2 (start 0x0200 [(0x0200, 0xA9), (0x0201, 0x80)])) ∧
    seen (step (start 0x0200 [(0x0200, 0xA9), (0x0201, 0x80)])) id =
      some (afterLoad .a 0x80 2 2 (start 0x0200 [(0x0200, 0xA9), (0x0201, 0x80)])) := by decide

/-- For the ten clauses of `CycleUnitsFollowTheReadOrderTable`: their opcode lists share no byte and are the map's. -/
theorem witness_read_order_clauses :
    ([0xA9, 0xA2, 0xA0] ++ [0xA5, 0xA6, 0xA4] ++ [0xB5, 0xB4] ++ [0xB6] ++ [0xAD, 0xAE, 0xAC] ++ [0xBD, 0xBC] ++
      [0xB9, 0xBE] ++ [0xA1] ++ [0xB1] : List Byte).Nodup ∧
    ([0xA9, 0xA2, 0xA0] ++ [0xA5, 0xA6, 0xA4] ++ [0xB5, 0xB4] ++ [0xB6] ++ [0xAD, 0xAE, 0xAC] ++ [0xBD, 0xBC] ++
      [0xB9, 0xBE] ++ [0xA1] ++ [0xB1] : List Byte).all (fun op => decide (op ∈ opcodesF2 ++ opcodesF3)) = true := by decide

/-- For the three clauses of `FlagUpdateSetsByValueClass`: both ends of each class (vectors F1, F6, F7, F2, F4). -/
theorem witness_flag_classes :
    (0x01 : Byte).toNat = 0x01 ∧ (0x7F : Byte).toNat = 0x7F ∧ (0x80 : Byte).toNat = 0x80 ∧
    (flagUpdate 0x00 State.reset).flags = { Flags.clear with z := true } ∧ flagUpdate 0x01 State.reset = State.reset ∧
    flagUpdate 0x7F State.reset = State.reset ∧ (flagUpdate 0x80 State.reset).flags = { Flags.clear with n := true } ∧
    (flagUpdate 0xFF State.reset).flags = { Flags.clear with n := true } := by decide

/-- For `FailedReadAbandonsTheLoad`, at the boundary. -/
theorem witness_failed_read :
    (load .a (readByte 65536) (start 0x0200 [])).state =
      { start 0x0200 [] with cyc := some 0, log := [.outOfRange 65536] } ∧ 65536 ≤ 65536 := by decide

/-- For `ExecuteRunsWhileTheBudgetIsPositive` (both clauses), `ExecuteOverrunsByAtMostFive`,
`ExecuteRunsBoundedNumberOfSteps`, `StepsOfTheMachineMakeUpTheInvocation`, `ExecuteNeverWritesMemory`: vector B3, whose
final budget is the least there is. -/
theorem witness_execute :
    seen (executeLoop [] 1 { start 0x0200 [(0x0024, 0x74), (0x0025, 0x20), (0x0200, 0xA1), (0x0201, 0x20), (0x2074, 0x99)] with
      x := 0x04 }) (fun t => (t.a, t.cyc)) = some (0x99, some (-5)) ∧
    loopSteps [] 1 (beginExecute 1 State.reset) = 1 ∧ (1 : Int).toNat ≤ 1 ∧
    loopSteps [] 4 (beginExecute 1 State.reset) = 1 ∧ (1 : Int).toNat < 2 ∧
    seen (execute [] 1 State.reset) (fun t => (t.pc, t.cyc)) = some (0xFFFD, none) := by decide

/-- For `ReadIsBoundsChecked`, `HostWriteThenReadGivesTheByte`: both sides of the bound. -/
theorem witness_bounds :
    State.reset.mem.wf = true ∧ State.reset.mem.read 65535 = .byte 0x00 ∧ State.reset.mem.read 65536 = .outOfRange 65536 ∧
    (Memory.init [(0x0005, 0x07)]).read 5 = .byte 0x00 := by decide

/-- For `PlacedWordIsTheNextInstruction`. -/
theorem witness_placed_word : State.reset.mem.wf = true ∧ decodeTableWord 16 0x00A9 = some (.ldaImm 0x00) := by decide

/-- For `HostMovesOnlyBetweenInvocations` and the second part of `OnlyResetClearsAFlagOrWritesSp`. -/
theorem witness_host_call :
    hostCall 0xFFFC (.write 0x0005 0x07) State.reset =
      some (.value (.byte 0x07), { State.reset with mem := [(0x0005, 0x07)] }) ∧
    hostCall 0xFFFC .init (beginExecute 1 State.reset) = none := by decide

/-- For `InitZeroesEveryByte` and both clauses of `ResetIsIdempotent`. -/
theorem witness_reset_call :
    hostCall 0xFFFC .init { State.reset with mem := [(0x0005, 0x07)] } = some (.nothing, State.reset) ∧
    hostCall 0xFFFC .reset { State.reset with a := 0x07, flags := { Flags.clear with z := true } } = some (.nothing, State.reset) ∧
    (beginExecute 1 State.reset).cyc ≠ none ∧ hostCall 0xFFFC .reset (beginExecute 1 State.reset) = none := by decide

/-- For `EveryStepKeepsTheInvariant`: a state with the invariant, and its next state. -/
theorem witness_invariant :
    (start 0x0200 [(0x0200, 0xFF)]).Inv ∧
    seen (step (start 0x0200 [(0x0200, 0xFF)])) id =
      some { start 0x0201 [(0x0200, 0xFF)] with cyc := some 0, log := [.unknownOpcode 0xFF 0x0200] } := by
  refine ⟨⟨by decide, by decide, ?_⟩, by decide⟩
  exact ⟨rfl, rfl, rfl, rfl, rfl⟩

/-- For `EveryReachableStateHasTheInvariant`: a state reached by a host call and a step. -/
theorem witness_reachable :
    Reachable 0xFFFC [] { State.reset with pc := 0xFFFD, cyc := some 0, log := [.unknownOpcode 0x00 0xFFFC] } := by
  have begun : Reachable 0xFFFC [] (beginExecute 1 State.reset) :=
    .host (call := .execute 1) (reply := .nothing) .reset (by decide)
  exact .step begun rfl

end Sys2Proof.Tests
end

/-! ## O22: flag writes are selective

What a load does to the state beyond pc and the budget is said once, in `exec_next`: a byte goes into the target register
and through `FlagUpdate`, and nothing else is written. -/

namespace Sys2Proof.Machine

/-! ### Reads touch pc and the budget alone -/

/-- `t` is `s` but for pc and the budget: all that the byte fetches, reads and idle units of 41_addressing_modes.md R80 to
R83 write. -/
def State.SameButPcAndBudget (s t : State) : Prop :=
  ∃ (pc : Addr) (cyc : Option Int), t = { s with pc := pc, cyc := cyc }

theorem State.SameButPcAndBudget.refl (s : State) : s.SameButPcAndBudget s := ⟨_, _, rfl⟩

theorem State.SameButPcAndBudget.charge {s t : State} (h : s.SameButPcAndBudget t) : s.SameButPcAndBudget t.charge := by
  obtain ⟨_, _, rfl⟩ := h
  exact ⟨_, _, rfl⟩

theorem State.SameButPcAndBudget.advance {s t : State} (h : s.SameButPcAndBudget t) :
    s.SameButPcAndBudget t.advance := by
  obtain ⟨_, _, rfl⟩ := h
  exact ⟨_, _, rfl⟩

theorem State.SameButPcAndBudget.flags_eq {s t : State} (h : s.SameButPcAndBudget t) : t.flags = s.flags := by
  obtain ⟨_, _, rfl⟩ := h
  rfl

/-- The access is done, and the state it leaves is `s` but for pc and the budget. -/
def Access.OnlyReads {α : Type} (s : State) (m : Access α) : Prop :=
  ∃ (v : α) (t : State) (us : List CycleUnit), m = .done v t us ∧ s.SameButPcAndBudget t

/-! ### The resolvers only read -/

section
variable {s t : State}

theorem decodedByte_onlyReads (d : Byte) (h : s.SameButPcAndBudget t) : (decodedByte d t).OnlyReads s :=
  ⟨_, _, _, decodedByte_eq d t, h.charge.advance⟩

theorem decodedWord_onlyReads (a : Addr) (h : s.SameButPcAndBudget t) : (decodedWord a t).OnlyReads s :=
  ⟨_, _, _, decodedWord_eq a t, h.charge.advance.charge.advance⟩

theorem resolveImm_onlyReads {operand : State → Access Byte} (h : (operand t).OnlyReads s) :
    (resolveImm operand t).OnlyReads s := h

theorem resolveZp_onlyReads {operand : State → Access Byte} (h : (operand t).OnlyReads s) :
    (resolveZp operand t).OnlyReads s := by
  obtain ⟨d, u, us, hd, hu⟩ := h
  exact ⟨_, _, _, resolveZp_done hd, hu.charge⟩

theorem resolveZpIdx_onlyReads {operand : State → Access Byte} (off : Byte) (h : (operand t).OnlyReads s) :
    (resolveZpIdx operand off t).OnlyReads s := by
  obtain ⟨d, u, us, hd, hu⟩ := h
  exact ⟨_, _, _, resolveZpIdx_done hd off, hu.charge⟩

theorem resolveIndX_onlyReads {operand : State → Access Byte} (h : (operand t).OnlyReads s) :
    (resolveIndX operand t).OnlyReads s := by
  obtain ⟨d, u, us, hd, hu⟩ := h
  exact ⟨_, _, _, resolveIndX_done hd rfl rfl, hu.charge.charge.charge.charge⟩

theorem resolveIndY_onlyReads {operand : State → Access Byte} (h : (operand t).OnlyReads s) :
    (resolveIndY operand t).OnlyReads s := by
  obtain ⟨d, u, us, hd, hu⟩ := h
  refine ⟨_, _, _, resolveIndY_done hd rfl rfl, ?_⟩
  split
  · exact hu.charge.charge.charge.charge
  · exact hu.charge.charge.charge

theorem resolveAbs_onlyReads {operand : State → Access Addr} (h : (operand t).OnlyReads s) :
    (resolveAbs operand t).OnlyReads s := by
  obtain ⟨a, u, us, ha, hu⟩ := h
  exact ⟨_, _, _, resolveAbs_done ha, hu.charge⟩

theorem resolveAbsIdx_onlyReads {operand : State → Access Addr} (off : Byte) (h : (operand t).OnlyReads s) :
    (resolveAbsIdx operand off t).OnlyReads s := by
  obtain ⟨a, u, us, ha, hu⟩ := h
  refine ⟨_, _, _, resolveAbsIdx_done ha off, ?_⟩
  split
  · exact hu.charge.charge
  · exact hu.charge

end

/-! ### What a load writes -/

/-- The outcome of a load into `r` (42_load_family.md R101): `r` takes a byte, the flags are updated from that byte, and the
rest of `s` is written in pc and the budget alone. -/
def LoadsInto (r : Reg) (s : State) (o : Host.Outcome State Fault Refusal) : Prop :=
  ∃ (v : Byte) (t : State), s.SameButPcAndBudget t ∧ o = .next (flagUpdate v (t.setReg r v))

theorem loadInstr_loadsInto {resolve : State → Access Byte} {s : State} (r : Reg)
    (h : (resolve s.charge.advance).OnlyReads s) : LoadsInto r s (completes (loadInstr r resolve s)) := by
  obtain ⟨v, t, us, hv, ht⟩ := h
  refine ⟨v, t, ht, ?_⟩
  rw [completes, loadInstr_done hv, Access.state_done]

/-- What any of the eighteen loads can do. -/
theorem exec_loadsInto (i : Instr) (s : State) : LoadsInto (targetOf i) s (exec i s) := by
  have fetched : s.SameButPcAndBudget s.charge.advance := (State.SameButPcAndBudget.refl s).charge.advance
  have operandByte (d : Byte) := decodedByte_onlyReads d fetched
  have operandWord (a : Addr) := decodedWord_onlyReads a fetched
  cases i with
  | ldaImm d => exact loadInstr_loadsInto .a (resolveImm_onlyReads (operandByte d))
  | ldaZp d => exact loadInstr_loadsInto .a (resolveZp_onlyReads (operandByte d))
  | ldaZpX d => exact loadInstr_loadsInto .a (resolveZpIdx_onlyReads s.x (operandByte d))
  | ldaAbs a => exact loadInstr_loadsInto .a (resolveAbs_onlyReads (operandWord a))
  | ldaAbsX a => exact loadInstr_loadsInto .a (resolveAbsIdx_onlyReads s.x (operandWord a))
  | ldaAbsY a => exact loadInstr_loadsInto .a (resolveAbsIdx_onlyReads s.y (operandWord a))
  | ldaIndX d => exact loadInstr_loadsInto .a (resolveIndX_onlyReads (operandByte d))
  | ldaIndY d => exact loadInstr_loadsInto .a (resolveIndY_onlyReads (operandByte d))
  | ldxImm d => exact loadInstr_loadsInto .x (resolveImm_onlyReads (operandByte d))
  | ldxZp d => exact loadInstr_loadsInto .x (resolveZp_onlyReads (operandByte d))
  | ldxZpY d => exact loadInstr_loadsInto .x (resolveZpIdx_onlyReads s.y (operandByte d))
  | ldxAbs a => exact loadInstr_loadsInto .x (resolveAbs_onlyReads (operandWord a))
  | ldxAbsY a => exact loadInstr_loadsInto .x (resolveAbsIdx_onlyReads s.y (operandWord a))
  | ldyImm d => exact loadInstr_loadsInto .y (resolveImm_onlyReads (operandByte d))
  | ldyZp d => exact loadInstr_loadsInto .y (resolveZp_onlyReads (operandByte d))
  | ldyZpX d => exact loadInstr_loadsInto .y (resolveZpIdx_onlyReads s.x (operandByte d))
  | ldyAbs a => exact loadInstr_loadsInto .y (resolveAbs_onlyReads (operandWord a))
  | ldyAbsX a => exact loadInstr_loadsInto .y (resolveAbsIdx_onlyReads s.x (operandWord a))

/-- The inversion of a load: every next state is a byte put into the target and through `FlagUpdate`. -/
theorem exec_next {i : Instr} {s t : State} (h : exec i s = .next t) :
    ∃ (v : Byte) (u : State), s.SameButPcAndBudget u ∧ t = flagUpdate v (u.setReg (targetOf i) v) := by
  obtain ⟨v, u, hu, hnext⟩ := exec_loadsInto i s
  rw [h] at hnext
  exact ⟨v, u, hu, Host.Outcome.next.inj hnext⟩

@[simp] theorem reg_flagUpdate (v : Byte) (s : State) (r : Reg) : (flagUpdate v s).reg r = s.reg r := by
  cases r <;> rfl

/-- `FlagUpdate` (R100) as it reads in R17: each of N and Z is its old value or the test of the byte. -/
theorem flagUpdate_flags_or (v : Byte) (s : State) :
    (flagUpdate v s).flags = { s.flags with
      n := s.flags.n || v.getLsbD 7
      z := s.flags.z || decide (v.toNat = 0) } := by
  have zero_test : decide (v.toNat = 0) = decide (v = 0x00) := decide_eq_decide.2 (BitVec.toNat_inj (y := 0x00))
  rw [flagUpdate_flags, zero_test, ← bit7, Flags.mk.injEq]
  refine ⟨rfl, ?_, rfl, rfl, rfl, rfl, ?_⟩
  · cases s.flags.z <;> simp
  · cases s.flags.n <;> simp

/-! ### A byte that is no load -/

/-- The opcode bytes of the map (30_encoding.md R56) are the two-byte and the three-byte ones. -/
theorem mem_opcodeTable_iff (op : Byte) : op ∈ opcodeTable.map Prod.fst ↔ op ∈ opcodesF2 ∨ op ∈ opcodesF3 := by
  rw [← List.mem_append]
  exact List.Perm.mem_iff (by decide)

/-- The bytes without a row are those in neither list (30_encoding.md R58). -/
theorem formOf_eq_none_iff (op : Byte) : formOf op = none ↔ op ∉ opcodesF2 ∧ op ∉ opcodesF3 := by
  rw [← not_or, ← mem_opcodeTable_iff, formOf, List.lookup_eq_none_iff]
  simp only [bne_iff_ne, ne_eq, eq_comm (a := op), List.mem_map, not_exists, not_and]

theorem instrAt_eq_none {s : State} (h2 : s.byteAt s.pc ∉ opcodesF2) (h3 : s.byteAt s.pc ∉ opcodesF3) :
    s.instrAt = none := by
  rw [State.instrAt, decodeInstr, (formOf_eq_none_iff _).2 ⟨h2, h3⟩]

/-- Stub or not, an opcode without a handler writes no flag (43_unrecognized_opcodes.md R120, R122). -/
theorem runInstruction_flags_of_none {s t : State} {stubs : List Byte} (hi : s.instrAt = none)
    (h : runInstruction stubs s = .next t) : t.flags = s.flags := by
  rw [runInstruction_none hi] at h
  obtain rfl := Host.Outcome.next.inj h
  split <;> rfl

/-- Settles O22: `exec_next` says what a load writes and `flagUpdate_flags_or` what that makes of the flags; a byte that is
no load decodes to nothing. -/
theorem flagWritesAreSelective : Obligations.FlagWritesAreSelective := by
  unfold Obligations.FlagWritesAreSelective
  constructor
  case left =>
    intro i s t h
    obtain ⟨v, u, hu, rfl⟩ := exec_next h
    rw [flagUpdate_flags_or, setReg_flags, hu.flags_eq, reg_flagUpdate, reg_setReg_self]
  case right =>
    intro stubs s t h2 h3 h
    exact runInstruction_flags_of_none (instrAt_eq_none h2 h3) h

end Sys2Proof.Machine

/-! ## O37, O39: the memory interface

What `read` answers on each side of the bound, and what `init` leaves behind, are said once; the two statements are read
off from that. -/

namespace Sys2Proof.Machine

/-! ### `read` on each side of the bound -/

theorem Memory.read_of_lt {addr : Nat} (h : addr < Config.memSize) (m : Memory) :
    m.read addr = .byte (m.byteAt addr) :=
  if_pos h

theorem Memory.read_of_le {addr : Nat} (h : Config.memSize ≤ addr) (m : Memory) :
    m.read addr = .outOfRange addr :=
  if_neg (Nat.not_lt.2 h)

/-- Settles O37: 65536 is `Config.memSize`, and the two clauses are the two branches of `read`. -/
theorem readIsBoundsChecked : Obligations.ReadIsBoundsChecked := by
  unfold Obligations.ReadIsBoundsChecked
  intro m addr
  exact ⟨fun inRange => m.read_of_lt inRange, fun outside => m.read_of_le outside⟩

/-! ### `init`, between invocations -/

/-- After `init` every address in range reads 0 (20_memory.md R34). -/
theorem Memory.read_init {addr : Nat} (h : addr < Config.memSize) (m : Memory) : m.init.read addr = .byte 0x00 := by
  rw [Memory.read_of_lt h, Memory.byteAt_init]

theorem hostCall_init_of_idle {s : State} (h : s.cyc = none) (resetVector : Addr) :
    hostCall resetVector .init s = some (.nothing, hostInit s) := by
  simp [hostCall, h]

/-- Reset performs `init` (20_memory.md R34, 70_reset_and_hazards.md R150). -/
theorem hostReset_mem_eq_init (resetVector : Addr) (s : State) : (hostReset resetVector s).mem = s.mem.init := rfl

/-- Settles O39: with no invocation in progress the host's `init` is made, and the memory it leaves is `s.mem.init`. -/
theorem initZeroesEveryByte : Obligations.InitZeroesEveryByte := by
  unfold Obligations.InitZeroesEveryByte
  intro resetVector s idle
  refine ⟨s.mem.init, ?called, ?zeroed, ?sameAsReset⟩
  case called => exact hostCall_init_of_idle idle resetVector
  case zeroed => exact fun addr inRange => s.mem.read_init inRange
  case sameAsReset => exact hostReset_mem_eq_init resetVector s

end Sys2Proof.Machine

/-! ## O29, O30: the budget and the loop

An instruction looks at the budget nowhere; it only takes from it. That is said of a charged operation in
`ChargesItsUnits`, which sequencing keeps, and of the whole instruction in `runInstruction_paidFromBudget`. The fuel of
`runLoop` is then of no account as long as it covers the budget (`runLoop_fuel_irrelevant`). -/

namespace Sys2Proof.Machine

/-! ### The budget as a parameter of the state -/

theorem beginExecute_of_cyc_eq {s : State} {c : Int} (h : s.cyc = some c) : beginExecute c s = s := by
  rw [beginExecute, ← h]

theorem charge_beginExecute (c : Int) (s : State) : (beginExecute c s).charge = beginExecute (c - 1) s := rfl

theorem advance_beginExecute (c : Int) (s : State) : (beginExecute c s).advance = beginExecute c s.advance := rfl

theorem setReg_beginExecute (c : Int) (s : State) (r : Reg) (v : Byte) :
    (beginExecute c s).setReg r v = beginExecute c (s.setReg r v) := by
  cases r <;> rfl

theorem flagUpdate_beginExecute (c : Int) (s : State) (v : Byte) :
    flagUpdate v (beginExecute c s) = beginExecute c (flagUpdate v s) := rfl

/-- The decoder does not look at the budget. -/
theorem instrAt_beginExecute (c : Int) (s : State) : (beginExecute c s).instrAt = s.instrAt := rfl

/-! ### Charged operations take one unit of budget for each unit they emit -/

/-- From every state, and with every budget in it, the operation is done with the same value, the same units and the same
state but for the budget, from which it has taken one for each of its units (20_memory.md R47). -/
def ChargesItsUnits {α : Type} (m : State → Access α) : Prop :=
  ∀ s : State, ∃ (v : α) (t : State) (us : List CycleUnit),
    ∀ c : Int, m (beginExecute c s) = .done v (beginExecute (c - us.length) t) us

theorem ChargesItsUnits.andThen {α β : Type} {m : State → Access α} {f : α → State → Access β}
    (hm : ChargesItsUnits m) (hf : ∀ v : α, ChargesItsUnits (f v)) : ChargesItsUnits fun s => (m s).andThen f := by
  intro s
  obtain ⟨v, t, us, hv⟩ := hm s
  obtain ⟨w, u, us', hw⟩ := hf v t
  refine ⟨w, u, us ++ us', fun c => ?_⟩
  have cost : c - us.length - us'.length = c - ((us ++ us').length : Int) := by
    rw [List.length_append]
    omega
  simp only [hv, Access.andThen_done, hw, cost]

theorem readByte_chargesItsUnits (a : Addr) : ChargesItsUnits (readByte a.toNat) := fun s =>
  ⟨s.byteAt a, s, [.read a.toNat], fun c => readByte_addr a (beginExecute c s)⟩

theorem idleUnit_chargesItsUnits : ChargesItsUnits idleUnit := fun s =>
  ⟨(), s, [.idle], fun c => idleUnit_eq (beginExecute c s)⟩

theorem decodedByte_chargesItsUnits (d : Byte) : ChargesItsUnits (decodedByte d) := fun s =>
  ⟨d, s.advance, [.read s.pc.toNat], fun c => decodedByte_eq d (beginExecute c s)⟩

theorem done_chargesItsUnits {α : Type} (v : α) : ChargesItsUnits fun s => Access.done v s [] := fun s =>
  ⟨_, s, _, fun c => by rw [List.length_nil, Int.natCast_zero, Int.sub_zero]⟩

theorem decodedWord_chargesItsUnits (a : Addr) : ChargesItsUnits (decodedWord a) := by
  intro s
  refine ⟨a, s.advance.advance, [.read s.pc.toNat, .read (s.pc + 1).toNat], fun c => ?_⟩
  rw [decodedWord_eq]
  simp only [charge_beginExecute, advance_beginExecute, Int.sub_sub]
  rfl

theorem readPtrZp_chargesItsUnits (p : Byte) : ChargesItsUnits (readPtrZp p) :=
  (readByte_chargesItsUnits _).andThen fun _ =>
    (readByte_chargesItsUnits _).andThen fun _ => done_chargesItsUnits _

theorem pageCrossPenalty_chargesItsUnits (base : Addr) (off : Byte) : ChargesItsUnits (pageCrossPenalty base off) := by
  unfold pageCrossPenalty
  split
  · exact idleUnit_chargesItsUnits
  · exact done_chargesItsUnits ()

theorem readIndexed_chargesItsUnits (base : Addr) (off : Byte) : ChargesItsUnits (readIndexed base off) :=
  (pageCrossPenalty_chargesItsUnits base off).andThen fun _ => readByte_chargesItsUnits _

/-! ### The resolvers -/

section
variable {operand : State → Access Byte} (h : ChargesItsUnits operand)
include h

theorem resolveImm_chargesItsUnits : ChargesItsUnits (resolveImm operand) := h

theorem resolveZp_chargesItsUnits : ChargesItsUnits (resolveZp operand) :=
  h.andThen fun _ => readByte_chargesItsUnits _

theorem resolveZpIdx_chargesItsUnits (off : Byte) : ChargesItsUnits (resolveZpIdx operand off) :=
  h.andThen fun _ => readByte_chargesItsUnits _

/-- X, which the pointer's location depends on, is the same whatever the budget. -/
theorem resolveIndX_chargesItsUnits : ChargesItsUnits (resolveIndX operand) :=
  h.andThen fun d t =>
    (idleUnit_chargesItsUnits.andThen fun _ =>
      (readPtrZp_chargesItsUnits (d + t.x)).andThen fun _ => readByte_chargesItsUnits _) t

/-- Y, the offset, is the same whatever the budget. -/
theorem resolveIndY_chargesItsUnits : ChargesItsUnits (resolveIndY operand) :=
  h.andThen fun d => (readPtrZp_chargesItsUnits d).andThen fun base t => readIndexed_chargesItsUnits base t.y t

end

section
variable {operand : State → Access Addr} (h : ChargesItsUnits operand)
include h

theorem resolveAbs_chargesItsUnits : ChargesItsUnits (resolveAbs operand) :=
  h.andThen fun _ => readByte_chargesItsUnits _

theorem resolveAbsIdx_chargesItsUnits (off : Byte) : ChargesItsUnits (resolveAbsIdx operand off) :=
  h.andThen fun base => readIndexed_chargesItsUnits base off

end

/-! ### A whole instruction -/

/-- A run, given as a function of the budget it begins with, completes whatever that budget is, at one cost of at least one
unit, and in one state but for the budget left (40_fetch_execute_loop.md R68). -/
def PaidFromBudget (run : Int → Host.Outcome State Fault Refusal) : Prop :=
  ∃ (t : State) (k : Int), 1 ≤ k ∧ ∀ c : Int, run c = .next (beginExecute (c - k) t)

/-- The cost of a load is the opcode fetch and the units of its resolver. -/
theorem loadInstr_paidFromBudget {resolve : State → Access Byte} (r : Reg) (h : ChargesItsUnits resolve) (s : State) :
    PaidFromBudget fun c => completes (loadInstr r resolve (beginExecute c s)) := by
  obtain ⟨v, t, us, hv⟩ := h s.advance
  refine ⟨flagUpdate v (t.setReg r v), 1 + us.length, by omega, fun c => ?_⟩
  have resolved : resolve (beginExecute c s).charge.advance = _ := hv (c - 1)
  simp only [completes, loadInstr_done resolved, Access.state_done, setReg_beginExecute, flagUpdate_beginExecute, Int.sub_sub]

theorem exec_paidFromBudget (i : Instr) (s : State) : PaidFromBudget fun c => exec i (beginExecute c s) := by
  have operandByte := decodedByte_chargesItsUnits
  have operandWord := decodedWord_chargesItsUnits
  cases i with
  | ldaImm d => exact loadInstr_paidFromBudget .a (resolveImm_chargesItsUnits (operandByte d)) s
  | ldaZp d => exact loadInstr_paidFromBudget .a (resolveZp_chargesItsUnits (operandByte d)) s
  | ldaZpX d => exact loadInstr_paidFromBudget .a (resolveZpIdx_chargesItsUnits (operandByte d) s.x) s
  | ldaAbs a => exact loadInstr_paidFromBudget .a (resolveAbs_chargesItsUnits (operandWord a)) s
  | ldaAbsX a => exact loadInstr_paidFromBudget .a (resolveAbsIdx_chargesItsUnits (operandWord a) s.x) s
  | ldaAbsY a => exact loadInstr_paidFromBudget .a (resolveAbsIdx_chargesItsUnits (operandWord a) s.y) s
  | ldaIndX d => exact loadInstr_paidFromBudget .a (resolveIndX_chargesItsUnits (operandByte d)) s
  | ldaIndY d => exact loadInstr_paidFromBudget .a (resolveIndY_chargesItsUnits (operandByte d)) s
  | ldxImm d => exact loadInstr_paidFromBudget .x (resolveImm_chargesItsUnits (operandByte d)) s
  | ldxZp d => exact loadInstr_paidFromBudget .x (resolveZp_chargesItsUnits (operandByte d)) s
  | ldxZpY d => exact loadInstr_paidFromBudget .x (resolveZpIdx_chargesItsUnits (operandByte d) s.y) s
  | ldxAbs a => exact loadInstr_paidFromBudget .x (resolveAbs_chargesItsUnits (operandWord a)) s
  | ldxAbsY a => exact loadInstr_paidFromBudget .x (resolveAbsIdx_chargesItsUnits (operandWord a) s.y) s
  | ldyImm d => exact loadInstr_paidFromBudget .y (resolveImm_chargesItsUnits (operandByte d)) s
  | ldyZp d => exact loadInstr_paidFromBudget .y (resolveZp_chargesItsUnits (operandByte d)) s
  | ldyZpX d => exact loadInstr_paidFromBudget .y (resolveZpIdx_chargesItsUnits (operandByte d) s.x) s
  | ldyAbs a => exact loadInstr_paidFromBudget .y (resolveAbs_chargesItsUnits (operandWord a)) s
  | ldyAbsX a => exact loadInstr_paidFromBudget .y (resolveAbsIdx_chargesItsUnits (operandWord a) s.x) s

/-- A byte without a handler costs its fetch (43_unrecognized_opcodes.md R120, R122). -/
theorem runInstruction_none_paidFromBudget (stubs : List Byte) {s : State} (hi : s.instrAt = none) :
    PaidFromBudget fun c => runInstruction stubs (beginExecute c s) := by
  refine ⟨if s.byteAt s.pc ∈ stubs then s.advance else s.advance.report (.unknownOpcode (s.byteAt s.pc) s.pc), 1,
    le_rfl, fun c => ?_⟩
  change runInstruction stubs (beginExecute c s) = _
  rw [runInstruction_none ((instrAt_beginExecute c s).trans hi), apply_ite (beginExecute (c - 1))]
  rfl

/-- The instruction at pc, whatever it is, completes at one cost and in one state whatever the budget (R68). -/
theorem runInstruction_paidFromBudget (stubs : List Byte) (s : State) :
    ∃ (t : State) (k : Int), 1 ≤ k ∧
      ∀ c : Int, runInstruction stubs (beginExecute c s) = .next (beginExecute (c - k) t) := by
  cases hi : s.instrAt with
  | none => exact runInstruction_none_paidFromBudget stubs hi
  | some i =>
    have decoded (c : Int) : runInstruction stubs (beginExecute c s) = exec i (beginExecute c s) :=
      runInstruction_some ((instrAt_beginExecute c s).trans hi) stubs
    simp only [decoded]
    exact exec_paidFromBudget i s

/-- Settles O29: a step with budget left is `runInstruction`, and `runInstruction_paidFromBudget` is about every budget at
once. -/
theorem budgetDoesNotChangeAnInstruction : Obligations.BudgetDoesNotChangeAnInstruction := by
  unfold Obligations.BudgetDoesNotChangeAnInstruction
  intro stubs s c hc hpos
  obtain ⟨t, k, hk, hrun⟩ := runInstruction_paidFromBudget stubs s
  have step_eq (b : Int) (hb : 1 ≤ b) : stepWith stubs (beginExecute b s) = .next (beginExecute (b - k) t) := by
    rw [stepWith_of_pos (beginExecute_cyc s b) hb, hrun b]
  refine ⟨beginExecute (c - k) t, k, hk, ?_, beginExecute_cyc t (c - k), step_eq⟩
  rw [← step_eq c hpos, beginExecute_of_cyc_eq hc]

/-! ### The loop -/

/-- An instruction run with a budget completes and leaves a smaller one. -/
theorem runInstruction_next_of_cyc (stubs : List Byte) {s : State} {c : Int} (hc : s.cyc = some c) :
    ∃ (t : State) (f : Int), runInstruction stubs s = .next t ∧ t.cyc = some f ∧ f < c := by
  obtain ⟨t, k, hk, hrun⟩ := runInstruction_paidFromBudget stubs s
  refine ⟨beginExecute (c - k) t, c - k, ?_, beginExecute_cyc t (c - k), by omega⟩
  rw [← hrun c, beginExecute_of_cyc_eq hc]

theorem not_running_of_nonpos {s : State} {c : Int} (hc : s.cyc = some c) (h : c ≤ 0) : s.running = false := by
  simp [State.running, hc, h]

theorem runLoop_of_not_running {s : State} (h : s.running = false) (stubs : List Byte) (fuel : Nat) :
    runLoop stubs fuel s = .next s := by
  cases fuel with
  | zero => rfl
  | succ fuel => simp [runLoop, h]

/-- One turn of the loop, when there is budget and fuel for it. -/
theorem runLoop_succ_of_next {stubs : List Byte} {s t : State} {c : Int} (hc : s.cyc = some c) (hpos : 0 < c)
    (ht : runInstruction stubs s = .next t) (fuel : Nat) : runLoop stubs (fuel + 1) s = runLoop stubs fuel t := by
  rw [runLoop, if_pos (running_iff.2 ⟨c, hc, hpos⟩), ht]

/-- Fuel that covers the budget is enough, and more makes no difference (R70). -/
theorem runLoop_fuel_irrelevant (stubs : List Byte) {fuel fuel' : Nat} {s : State} {c : Int} (hc : s.cyc = some c)
    (h : c.toNat ≤ fuel) (h' : c.toNat ≤ fuel') : runLoop stubs fuel s = runLoop stubs fuel' s := by
  induction fuel generalizing fuel' s c with
  | zero =>
    have stopped := not_running_of_nonpos hc (by omega)
    rw [runLoop_of_not_running stopped, runLoop_of_not_running stopped]
  | succ fuel ih =>
    rcases le_or_gt c 0 with exhausted | hpos
    · have stopped := not_running_of_nonpos hc exhausted
      rw [runLoop_of_not_running stopped, runLoop_of_not_running stopped]
    · obtain ⟨t, f, ht, hf, hlt⟩ := runInstruction_next_of_cyc stubs hc
      obtain ⟨fuel', rfl⟩ : ∃ m, fuel' = m + 1 := Nat.exists_eq_add_of_le' (by omega)
      rw [runLoop_succ_of_next hc hpos ht, runLoop_succ_of_next hc hpos ht]
      exact ih hf (by omega) (by omega)

/-- With no budget the loop body never runs (R66). -/
theorem executeLoop_of_nonpos {n : Int} (h : n ≤ 0) (stubs : List Byte) (s : State) :
    executeLoop stubs n s = .next (beginExecute n s) :=
  runLoop_of_not_running (not_running_of_nonpos (beginExecute_cyc s n) h) stubs n.toNat

/-- With budget, one instruction runs and the loop goes on from the state and with the budget it leaves (R66). -/
theorem executeLoop_of_pos {stubs : List Byte} {n f : Int} {s t : State} (h : 0 < n)
    (ht : runInstruction stubs (beginExecute n s) = .next t) (hf : t.cyc = some f) (hlt : f < n) :
    executeLoop stubs n s = executeLoop stubs f t := by
  obtain ⟨fuel, hfuel⟩ : ∃ m, n.toNat = m + 1 := Nat.exists_eq_add_of_le' (by omega)
  calc executeLoop stubs n s
    _ = runLoop stubs (fuel + 1) (beginExecute n s) := by rw [executeLoop, hfuel]
    _ = runLoop stubs fuel t := runLoop_succ_of_next (beginExecute_cyc s n) h ht fuel
    _ = runLoop stubs f.toNat t := runLoop_fuel_irrelevant stubs hf (by omega) le_rfl
    _ = executeLoop stubs f t := by rw [executeLoop, beginExecute_of_cyc_eq hf]

/-- The return of `execute` does the same to whatever the loop ends in. -/
theorem execute_congr {stubs : List Byte} {n m : Int} {s t : State}
    (h : executeLoop stubs n s = executeLoop stubs m t) : execute stubs n s = execute stubs m t := by
  rw [execute, execute, h]

/-- Settles O30: `executeLoop_of_nonpos` and `executeLoop_of_pos` are its two clauses, for the loop; the return follows. -/
theorem executeRunsWhileTheBudgetIsPositive : Obligations.ExecuteRunsWhileTheBudgetIsPositive := by
  unfold Obligations.ExecuteRunsWhileTheBudgetIsPositive
  intro stubs n s
  constructor
  case left =>
    intro hn
    have stopped := executeLoop_of_nonpos hn stubs s
    exact ⟨stopped, by rw [execute, stopped]; rfl⟩
  case right =>
    intro hn
    obtain ⟨t, f, ht, hf, hlt⟩ := runInstruction_next_of_cyc stubs (beginExecute_cyc s n)
    have unfolded := executeLoop_of_pos hn ht hf hlt
    exact ⟨t, f, ht, hf, unfolded, execute_congr unfolded⟩

end Sys2Proof.Machine

/-! ## O21, O19: `FlagUpdate` by value class, and `LDA #imm` from the bytes in memory

`FlagUpdate` is said once for each class of byte and then as `flagsAfterLoad`. With that, what a load leaves is `afterLoad`
as soon as its pc and its budget are known, and `LDA #imm` is followed from its bytes to the end of `execute(2)`. -/

namespace Sys2Proof.Machine

/-! ### `FlagUpdate` by value class -/

theorem flagUpdate_zero (s : State) : flagUpdate 0x00 s = { s with flags := { s.flags with z := true } } := rfl

theorem flagUpdate_of_positive {v : Byte} (low : 0x01 ≤ v.toNat) (high : v.toNat ≤ 0x7F) (s : State) :
    flagUpdate v s = s := by
  have nonzero : v ≠ 0x00 := by rintro rfl; exact absurd low (by decide)
  have bit7_clear : bit7 v = false := by rw [← Bool.not_eq_true, bit7_iff]; omega
  rw [flagUpdate, bit7_clear, if_neg nonzero]
  rfl

theorem flagUpdate_of_negative {v : Byte} (h : 0x80 ≤ v.toNat) (s : State) :
    flagUpdate v s = { s with flags := { s.flags with n := true } } := by
  have nonzero : v ≠ 0x00 := by rintro rfl; exact absurd h (by decide)
  have bit7_set : bit7 v = true := (bit7_iff v).2 h
  rw [flagUpdate, bit7_set, if_neg nonzero]
  rfl

/-- Settles O21: a lemma for each of the three classes. -/
theorem flagUpdateSetsByValueClass : Obligations.FlagUpdateSetsByValueClass := by
  unfold Obligations.FlagUpdateSetsByValueClass
  intro v s
  refine ⟨?zero, ?positive, ?negative⟩
  case zero => rintro rfl; exact flagUpdate_zero s
  case positive => exact fun low high => flagUpdate_of_positive low high s
  case negative => exact fun h => flagUpdate_of_negative h s

/-- `FlagUpdate` writes the flags alone, and writes them as the value classes of R100 say. -/
theorem flagUpdate_eq_flagsAfterLoad (v : Byte) (s : State) :
    flagUpdate v s = { s with flags := flagsAfterLoad v s.flags } := by
  unfold flagsAfterLoad
  split_ifs with zero positive
  · obtain rfl : v = 0x00 := BitVec.eq_of_toNat_eq zero
    exact flagUpdate_zero s
  · exact flagUpdate_of_positive (by omega) positive s
  · exact flagUpdate_of_negative (by omega) s

/-! ### An immediate load -/

/-- A load that has moved pc by `len` and charged `units` leaves what `afterLoad` says (42_load_family.md R101). -/
theorem flagUpdate_setReg_eq_afterLoad (r : Reg) (v : Byte) (len : Nat) (units : Int) (s : State) :
    flagUpdate v (State.setReg
        { s with pc := BitVec.ofNat 16 (s.pc.toNat + len), cyc := s.cyc.map fun c => c - units } r v) =
      afterLoad r v len units s := by
  rw [flagUpdate_eq_flagsAfterLoad]
  cases r <;> rfl

/-- Two byte fetches: pc moves by 2 and 2 units are charged (41_addressing_modes.md R80). -/
theorem charge_advance_twice (s : State) :
    s.charge.advance.charge.advance =
      { s with pc := BitVec.ofNat 16 (s.pc.toNat + 2), cyc := s.cyc.map fun c => c - 2 } := by
  have pc_eq : s.pc + 1 + 1 = BitVec.ofNat 16 (s.pc.toNat + 2) := by bv_omega
  have cyc_eq : (s.cyc.map (· - 1)).map (· - 1) = s.cyc.map fun c => c - 2 := by
    cases s.cyc with
    | none => rfl
    | some c => simp only [Option.map_some, Option.some.injEq]; omega
  rw [← pc_eq, ← cyc_eq]
  rfl

/-- Whatever its register, an immediate load takes 2 bytes and 2 units (41_addressing_modes.md R85). -/
theorem loadInstr_imm_eq_afterLoad (r : Reg) (d : Byte) (s : State) :
    completes (loadInstr r (resolveImm (decodedByte d)) s) = .next (afterLoad r d 2 2 s) := by
  rw [completes, loadInstr_done (resolveImm_done (decodedByte_eq d _)), Access.state_done, charge_advance_twice,
    flagUpdate_setReg_eq_afterLoad]

/-! ### `LDA #imm` from the bytes in memory -/

theorem instrAt_of_ldaImm {s : State} (h : s.byteAt s.pc = 0xA9) :
    s.instrAt = some (.ldaImm (s.byteAt (s.pc + 1))) := by
  rw [State.instrAt, h]
  rfl

theorem runInstruction_of_ldaImm {s : State} (h : s.byteAt s.pc = 0xA9) (stubs : List Byte) :
    runInstruction stubs s = .next (afterLoad .a (s.byteAt (s.pc + 1)) 2 2 s) := by
  rw [runInstruction_some (instrAt_of_ldaImm h)]
  exact loadInstr_imm_eq_afterLoad .a _ s

/-- The address after pc, with the wrap written out (10_state.md R14). -/
theorem pc_add_one_eq_ofNat_mod (pc : Addr) : pc + 1 = BitVec.ofNat 16 ((pc.toNat + 1) % 65536) := by
  bv_omega

/-- The source's scenario (42_load_family.md R102): one instruction uses up a budget of 2, and the loop stops at 0. -/
theorem executeLoop_two_of_ldaImm {s : State} (h : s.byteAt s.pc = 0xA9) (stubs : List Byte) :
    executeLoop stubs 2 s = .next (beginExecute 0 (afterLoad .a (s.byteAt (s.pc + 1)) 2 2 s)) := by
  have ran := runInstruction_of_ldaImm (s := beginExecute 2 s) h stubs
  rw [executeLoop_of_pos (f := 0) (by decide) ran rfl (by decide), executeLoop_of_nonpos le_rfl]
  rfl

/-- Settles O19: encoding, one step, and `execute(2)`; the last two run the bytes at pc by `runInstruction_of_ldaImm`. -/
theorem ldaImmediateRunsFromMemory : Obligations.LdaImmediateRunsFromMemory := by
  unfold Obligations.LdaImmediateRunsFromMemory
  refine ⟨?encoding, ?oneStep, ?executeTwo⟩
  case encoding => exact fun d => ⟨rfl, rfl⟩
  case oneStep =>
    intro stubs s c hc hpos hop
    rw [stepWith_of_pos hc hpos, runInstruction_of_ldaImm hop, ← pc_add_one_eq_ofNat_mod]
  case executeTwo =>
    intro stubs s hop hoperand
    rw [executeLoop_two_of_ldaImm hop, hoperand]
    rfl

end Sys2Proof.Machine

/-! ## O41: reset is the host's call, and idempotent

When the host's reset is made is one lemma per branch of `hostCall`; that a second reset changes nothing is said of
`hostReset` itself. -/

namespace Sys2Proof.Machine

/-- While an invocation is in progress the host has no move, whatever the call (40_fetch_execute_loop.md R72). -/
theorem hostCall_eq_none_of_inProgress {s : State} (h : s.cyc ≠ none) (resetVector : Addr) (call : HostCall) :
    hostCall resetVector call s = none :=
  if_pos (Option.isSome_iff_ne_none.2 h)

theorem hostCall_reset_of_idle {s : State} (h : s.cyc = none) (resetVector : Addr) :
    hostCall resetVector .reset s = some (.nothing, hostReset resetVector s) := by
  simp [hostCall, h]

/-- Two resets in a row leave the same state as one (70_reset_and_hazards.md R151): each field that reset writes gets a
value that does not depend on the state, and the budget and the log are not written. -/
theorem hostReset_hostReset (resetVector : Addr) (s : State) :
    hostReset resetVector (hostReset resetVector s) = hostReset resetVector s := rfl

/-- Settles O41: reset begins no invocation, so it may be made again at once, and `hostReset` is idempotent. -/
theorem resetIsIdempotent : Obligations.ResetIsIdempotent := by
  unfold Obligations.ResetIsIdempotent
  intro resetVector s
  constructor
  case left => exact fun inProgress => hostCall_eq_none_of_inProgress inProgress resetVector .reset
  case right =>
    intro idle
    have stillIdle : (hostReset resetVector s).cyc = none := (hostReset_cyc s resetVector).trans idle
    refine ⟨hostReset resetVector s, hostCall_reset_of_idle idle resetVector, ?again⟩
    case again => rw [hostCall_reset_of_idle stillIdle, hostReset_hostReset]

end Sys2Proof.Machine

/-! ## O1, O2, O3, O4: the encoder and the decoder

The two formats are decoded once each (`decode_encodeF2`, `decode_encodeF3`); the other direction goes row by row through the
opcode map (`opcodeTable_encodedUnder`), so that what was decoded is encoded by the bytes it was read from. -/

namespace Sys2Proof
open Machine

/-! ### Decoding what was encoded -/

theorem decode_encodeF2 {op : Byte} {build : Byte → Instr} (h : formOf op = some (.f2 build)) (d : Byte)
    (rest : List Byte) : decode (encodeF2 op d ++ rest) = .instr (build d) rest := by
  simp [decode, encodeF2, lengthOf, decodeInstr, h]

theorem decode_encodeF3 {op : Byte} {build : Addr → Instr} (h : formOf op = some (.f3 build)) (a : Addr)
    (rest : List Byte) : decode (encodeF3 op a ++ rest) = .instr (build a) rest := by
  simp [decode, encodeF3, lengthOf, decodeInstr, h]

/-- Settles O1: the opcode byte selects the row, and the bytes of either format give the row's operand back. -/
theorem decodeOfEncodeGivesInstructionBack : Obligations.DecodeOfEncodeGivesInstructionBack := by
  unfold Obligations.DecodeOfEncodeGivesInstructionBack
  intro i rest
  cases i with
  | ldaImm d => exact decode_encodeF2 rfl d rest
  | ldaZp d => exact decode_encodeF2 rfl d rest
  | ldaZpX d => exact decode_encodeF2 rfl d rest
  | ldaAbs a => exact decode_encodeF3 rfl a rest
  | ldaAbsX a => exact decode_encodeF3 rfl a rest
  | ldaAbsY a => exact decode_encodeF3 rfl a rest
  | ldaIndX d => exact decode_encodeF2 rfl d rest
  | ldaIndY d => exact decode_encodeF2 rfl d rest
  | ldxImm d => exact decode_encodeF2 rfl d rest
  | ldxZp d => exact decode_encodeF2 rfl d rest
  | ldxZpY d => exact decode_encodeF2 rfl d rest
  | ldxAbs a => exact decode_encodeF3 rfl a rest
  | ldxAbsY a => exact decode_encodeF3 rfl a rest
  | ldyImm d => exact decode_encodeF2 rfl d rest
  | ldyZp d => exact decode_encodeF2 rfl d rest
  | ldyZpX d => exact decode_encodeF2 rfl d rest
  | ldyAbs a => exact decode_encodeF3 rfl a rest
  | ldyAbsX a => exact decode_encodeF3 rfl a rest

/-! ### Encoding what was decoded -/

/-- A row of the opcode map agrees with the encoder: what it builds is encoded under its opcode, in its format. -/
def Form.EncodedUnder (op : Byte) : Form → Prop
  | .f2 build => ∀ d : Byte, encode (build d) = encodeF2 op d
  | .f3 build => ∀ a : Addr, encode (build a) = encodeF3 op a

theorem opcodeTable_encodedUnder : ∀ row ∈ opcodeTable, row.2.EncodedUnder row.1 := by
  simp [opcodeTable, Form.EncodedUnder, encode]

theorem formOf_encodedUnder {op : Byte} {form : Form} (h : formOf op = some form) : form.EncodedUnder op := by
  obtain ⟨before, after, split, -⟩ := List.lookup_eq_some_iff.1 h
  exact opcodeTable_encodedUnder (op, form) (by simp [split])

/-- The bytes of a decoded instruction are the bytes it was read from, as far as its length reaches. -/
theorem encode_of_decodeInstr {op b1 b2 : Byte} {i : Instr} (h : decodeInstr op b1 b2 = some i) :
    encode i = [op, b1, b2].take (lengthOf op) := by
  unfold decodeInstr at h
  unfold lengthOf
  split at h
  case h_1 build hform =>
    obtain rfl := Option.some.inj h
    rw [formOf_encodedUnder hform b1, encodeF2]
    rfl
  case h_2 build hform =>
    obtain rfl := Option.some.inj h
    rw [formOf_encodedUnder hform (word b2 b1), encodeF3, lo_word, hi_word]
    rfl
  case h_3 => contradiction

theorem lengthOf_le_three (op : Byte) : lengthOf op ≤ 3 := by
  unfold lengthOf
  split <;> decide

theorem decode_eq_instr {bytes rest : List Byte} {i : Instr} (h : decode bytes = .instr i rest) :
    ∃ (op : Byte) (tail : List Byte), bytes = op :: tail ∧ lengthOf op ≤ bytes.length ∧
      decodeInstr op (tail.getD 0 0) (tail.getD 1 0) = some i ∧ rest = bytes.drop (lengthOf op) := by
  unfold decode at h
  split at h
  case h_1 => contradiction
  case h_2 op tail =>
    split at h
    case isTrue => contradiction
    case isFalse long =>
      split at h
      case h_1 j hj =>
        obtain ⟨rfl, rfl⟩ := Decoded.instr.inj h
        exact ⟨op, tail, rfl, Nat.le_of_not_lt long, hj, rfl⟩
      case h_2 => contradiction

/-- A list that holds as many bytes as its opcode asks for starts with the bytes that the decoder looks at. -/
theorem take_lengthOf {op : Byte} {tail : List Byte} (h : lengthOf op ≤ (op :: tail).length) :
    (op :: tail).take (lengthOf op) = [op, tail.getD 0 0, tail.getD 1 0].take (lengthOf op) := by
  have short := lengthOf_le_three op
  generalize lengthOf op = len at h short
  match len, tail, h, short with
  | 0, _, _, _ | 1, _, _, _ | 2, _ :: _, _, _ | 3, _ :: _ :: _, _, _ => rfl

theorem length_encode_of_decodeInstr {op b1 b2 : Byte} {i : Instr} (h : decodeInstr op b1 b2 = some i) :
    (encode i).length = lengthOf op := by
  rw [encode_of_decodeInstr h, List.length_take]
  exact min_eq_left (lengthOf_le_three op)

/-- Settles O2: what was decoded is encoded by the bytes taken, and the rest are the bytes dropped. -/
theorem encodeOfDecodeGivesBytesBack : Obligations.EncodeOfDecodeGivesBytesBack := by
  unfold Obligations.EncodeOfDecodeGivesBytesBack
  intro bytes rest i h
  obtain ⟨op, tail, rfl, long, decoded, rfl⟩ := decode_eq_instr h
  rw [encode_of_decodeInstr decoded, ← take_lengthOf long, List.take_append_drop]

/-! ### Length and recognition -/

theorem lengthOf_of_mem_opcodesF2 : ∀ op ∈ opcodesF2, lengthOf op = 2 := by decide

theorem lengthOf_of_mem_opcodesF3 : ∀ op ∈ opcodesF3, lengthOf op = 3 := by decide

theorem isSome_decodeInstr (op b1 b2 : Byte) : (decodeInstr op b1 b2).isSome = (formOf op).isSome := by
  unfold decodeInstr
  split <;> simp [*]

theorem isSome_formOf_iff (op : Byte) : (formOf op).isSome = true ↔ op ∈ opcodesF2 ∨ op ∈ opcodesF3 := by
  rw [← Option.ne_none_iff_isSome, Ne, formOf_eq_none_iff, ← not_or, not_not]

/-- Of the 256 bytes 18 have a row (30_encoding.md R56). -/
theorem length_filter_formOf_eq_none :
    ((List.range 256).filter fun n => (formOf (BitVec.ofNat 8 n)).isNone).length = 238 := by
  decide +kernel

/-- Settles O3: the length is said on each of the two lists and off both, recognition is having a row, and the rows are
counted. -/
theorem opcodeByteFixesLengthAndRecognition : Obligations.OpcodeByteFixesLengthAndRecognition := by
  unfold Obligations.OpcodeByteFixesLengthAndRecognition
  refine ⟨?length, ?recognized, ?count⟩
  case length =>
    intro op
    split_ifs with two three
    · exact lengthOf_of_mem_opcodesF2 op two
    · exact lengthOf_of_mem_opcodesF3 op three
    · rw [lengthOf, (formOf_eq_none_iff op).2 ⟨two, three⟩]
  case recognized =>
    intro op b1 b2
    rw [isSome_decodeInstr, isSome_formOf_iff]
  case count =>
    have noRow (n : Nat) : (decodeInstr (BitVec.ofNat 8 n) 0 0).isNone = (formOf (BitVec.ofNat 8 n)).isNone := by
      rw [← Option.not_isSome, isSome_decodeInstr, Option.not_isSome]
    simp only [noRow, length_filter_formOf_eq_none]

/-- Settles O4: the decoder evaluates on each of the words. -/
theorem specWordsDecodeToTheirInstructions : Obligations.SpecWordsDecodeToTheirInstructions := by
  unfold Obligations.SpecWordsDecodeToTheirInstructions
  exact ⟨rfl, rfl, rfl, rfl, rfl, rfl, rfl, rfl⟩

end Sys2Proof

/-! ## O25: the page-cross predicate

Both exclusive ors of R84 compare quotients by 256; that the high byte changes is then that the low byte carries. -/

namespace Sys2Proof.Machine

/-- The test of R84, on numbers: the two differ above bit 7. -/
theorem shiftRight_xor_ne_zero_iff (v w : Nat) : (v ^^^ w) >>> 8 ≠ 0 ↔ v / 256 ≠ w / 256 := by
  rw [Nat.shiftRight_xor_distrib, Ne, Nat.xor_eq_zero_iff, Nat.shiftRight_eq_div_pow, Nat.shiftRight_eq_div_pow]

/-- A page is crossed when the high byte changes, the sum reduced mod 65536. -/
theorem pageCross_iff_highByte (base : Addr) (off : Byte) :
    pageCross base off = true ↔ base.toNat / 256 ≠ (base + zext16 off).toNat / 256 := by
  rw [← shiftRight_xor_ne_zero_iff, pageCross, decide_eq_true_iff, Ne, ← BitVec.toNat_inj, BitVec.toNat_ushiftRight,
    BitVec.toNat_xor]
  rfl

/-- A page is crossed when the low byte carries. -/
theorem pageCross_iff_carry (base : Addr) (off : Byte) :
    pageCross base off = true ↔ 256 ≤ base.toNat % 256 + off.toNat := by
  have := base.isLt
  have := off.isLt
  rw [pageCross_iff_highByte, BitVec.toNat_add, toNat_zext16]
  omega

/-- Settles O25: each form is read off from `pageCross_iff_highByte` and `pageCross_iff_carry`. -/
theorem pageCrossIsAChangeOfHighByte : Obligations.PageCrossIsAChangeOfHighByte := by
  unfold Obligations.PageCrossIsAChangeOfHighByte
  intro base off
  refine ⟨?highByte, pageCross_iff_carry base off, ?unreduced, ?zero⟩
  case highByte =>
    rw [pageCross_iff_highByte, Ne, Ne, ← BitVec.toNat_inj, toNat_hi, toNat_hi, eq_comm]
  case unreduced =>
    have := off.isLt
    rw [shiftRight_xor_ne_zero_iff, pageCross_iff_carry]
    omega
  case zero =>
    have := base.isLt
    rw [← Bool.not_eq_true, pageCross_iff_carry]
    change ¬ 256 ≤ base.toNat % 256 + 0
    omega

end Sys2Proof.Machine

/-! ## O12 to O18: what each load does

An instruction is a target register and a mode (`modeOf`), the index register's value taken from the state. What a mode loads
and which units it consumes is written down once (`Mode.datum`, `Mode.units`); one lemma per resolver ties it to the model,
wherever its operand comes from; and `exec_eq` says it of the eighteen instructions. -/

namespace Sys2Proof.Machine

/-! ### Addresses, as the rules write them -/

theorem zext16_add (d off : Byte) : zext16 (d + off) = zeroPageSum d off := by
  apply BitVec.eq_of_toNat_eq
  rw [toNat_zext16, BitVec.toNat_add, zeroPageSum, BitVec.toNat_ofNat]
  omega

theorem zext16_eq_zeroPageSum (d : Byte) : zext16 d = zeroPageSum d 0 := by
  rw [← zext16_add]
  exact congrArg zext16 (BitVec.add_zero d).symm

theorem add_zext16 (base : Addr) (off : Byte) : base + zext16 off = indexedAddr base off := by
  apply BitVec.eq_of_toNat_eq
  rw [BitVec.toNat_add, toNat_zext16, indexedAddr, BitVec.toNat_ofNat]

theorem word_eq_pointerAt (p : Byte) (s : State) :
    word (s.byteAt (zeroPageSum p 1)) (s.byteAt (zeroPageSum p 0)) = pointerAt p s := by
  apply BitVec.eq_of_toNat_eq
  have := (s.byteAt (zeroPageSum p 1)).isLt
  have := (s.byteAt (zeroPageSum p 0)).isLt
  rw [toNat_word, pointerAt, BitVec.toNat_ofNat]
  omega

/-! ### The page-cross unit -/

theorem crossUnits_eq (base : Addr) (off : Byte) : crossUnits base off = if pageCross base off then 1 else 0 := by
  simp only [crossUnits, ge_iff_le, pageCross_iff_carry]

/-- The idle unit of an indexed access that crosses a page, where there is one (41_addressing_modes.md R92). -/
def crossIdle (base : Addr) (off : Byte) : List CycleUnit := if crossUnits base off = 1 then [.idle] else []

theorem crossIdle_eq (base : Addr) (off : Byte) : crossIdle base off = if pageCross base off then [.idle] else [] := by
  rw [crossIdle, crossUnits_eq]
  cases pageCross base off <;> rfl

theorem length_crossIdle (base : Addr) (off : Byte) : ((crossIdle base off).length : Int) = crossUnits base off := by
  rw [crossIdle_eq, crossUnits_eq]
  split <;> rfl

/-! ### Fetches, reads and idle units move pc and charge -/

/-- `s` after `len` bytes fetched and `units` units charged. -/
def State.spent (len : Nat) (units : Int) (s : State) : State :=
  { s with pc := BitVec.ofNat 16 (s.pc.toNat + len), cyc := s.cyc.map fun c => c - units }

section
variable (len : Nat) (units : Int) (s : State)

theorem spent_charge : (s.spent len units).charge = s.spent len (units + 1) := by
  have cyc_eq : (s.cyc.map fun c => c - units).map (· - 1) = s.cyc.map fun c => c - (units + 1) := by
    rw [Option.map_map]
    congr 1
    funext c
    exact Int.sub_sub c units 1
  rw [State.charge, State.spent, State.spent, ← cyc_eq]

theorem spent_advance : (s.spent len units).advance = s.spent (len + 1) units := by
  have pc_eq : BitVec.ofNat 16 (s.pc.toNat + len) + 1 = BitVec.ofNat 16 (s.pc.toNat + (len + 1)) := by
    bv_omega
  rw [State.advance, State.spent, State.spent, ← pc_eq]

theorem spent_zero : s.spent 0 0 = s := by
  simp [State.spent]

/-- The state in which an instruction's handler starts (40_fetch_execute_loop.md R67). -/
theorem charge_advance_eq_spent : s.charge.advance = s.spent 1 1 := by
  conv_lhs => rw [← spent_zero s, spent_charge, spent_advance]
  rfl

end

/-! ### What each addressing mode loads, and what it costs -/

/-- The addressing modes of 41_addressing_modes.md R85 to R91, with the operand and the value of the index register. -/
inductive Mode where
  | imm (d : Byte)
  | zp (d : Byte)
  | zpIdx (d off : Byte)
  | abs (a : Addr)
  | absIdx (a : Addr) (off : Byte)
  | indX (d off : Byte)
  | indY (d off : Byte)

/-- The mode of an instruction in a state (30_encoding.md R56). -/
def modeOf : Instr → State → Mode
  | .ldaImm d, _ | .ldxImm d, _ | .ldyImm d, _ => .imm d
  | .ldaZp d, _ | .ldxZp d, _ | .ldyZp d, _ => .zp d
  | .ldaZpX d, s | .ldyZpX d, s => .zpIdx d s.x
  | .ldxZpY d, s => .zpIdx d s.y
  | .ldaAbs a, _ | .ldxAbs a, _ | .ldyAbs a, _ => .abs a
  | .ldaAbsX a, s | .ldyAbsX a, s => .absIdx a s.x
  | .ldaAbsY a, s | .ldxAbsY a, s => .absIdx a s.y
  | .ldaIndX d, s => .indX d s.x
  | .ldaIndY d, s => .indY d s.y

/-- The length of an instruction of the mode, in bytes. -/
def Mode.length : Mode → Nat
  | .imm _ | .zp _ | .zpIdx _ _ | .indX _ _ | .indY _ _ => 2
  | .abs _ | .absIdx _ _ => 3

/-- The byte the mode supplies. -/
def Mode.datum (s : State) : Mode → Byte
  | .imm d => d
  | .zp d => s.byteAt (zeroPageSum d 0)
  | .zpIdx d off => s.byteAt (zeroPageSum d off)
  | .abs a => s.byteAt a
  | .absIdx a off => s.byteAt (indexedAddr a off)
  | .indX d off => s.byteAt (pointerAt (d + off) s)
  | .indY d off => s.byteAt (indexedAddr (pointerAt d s) off)

/-- The units the mode consumes after the operand, in order (41_addressing_modes.md R92). -/
def Mode.dataUnits (s : State) : Mode → List CycleUnit
  | .imm _ => []
  | .zp d => [.read (zeroPageSum d 0).toNat]
  | .zpIdx d off => [.read (zeroPageSum d off).toNat]
  | .abs a => [.read a.toNat]
  | .absIdx a off => crossIdle a off ++ [.read (indexedAddr a off).toNat]
  | .indX d off =>
    [.idle, .read (zeroPageSum (d + off) 0).toNat, .read (zeroPageSum (d + off) 1).toNat,
      .read (pointerAt (d + off) s).toNat]
  | .indY d off =>
    [.read (zeroPageSum d 0).toNat, .read (zeroPageSum d 1).toNat] ++
      (crossIdle (pointerAt d s) off ++ [.read (indexedAddr (pointerAt d s) off).toNat])

/-- The units of fetching an instruction of the mode (41_addressing_modes.md R80, R81). -/
def Mode.codeUnits (s : State) : Mode → List CycleUnit
  | .imm _ | .zp _ | .zpIdx _ _ | .indX _ _ | .indY _ _ => [.read s.pc.toNat, .read (s.pc + 1).toNat]
  | .abs _ | .absIdx _ _ => [.read s.pc.toNat, .read (s.pc + 1).toNat, .read (s.pc + 2).toNat]

/-- All units of an instruction of the mode, in order. -/
def Mode.units (s : State) (m : Mode) : List CycleUnit := m.codeUnits s ++ m.dataUnits s

theorem Mode.length_units (s : State) (m : Mode) : ((m.units s).length : Int) = m.length + (m.dataUnits s).length := by
  have code : (m.codeUnits s).length = m.length := by cases m <;> rfl
  rw [Mode.units, List.length_append, code, Nat.cast_add]

/-- A load into `r`: the mode's byte, length and units, with the effect that `afterLoad` gives them. -/
def loadOf (r : Reg) (m : Mode) (s : State) : Access Unit :=
  .done () (afterLoad r (m.datum s) m.length (m.units s).length s) (m.units s)

/-! ### The resolvers do what their modes say -/

/-- A resolver, after the opcode fetch, supplies the mode's byte and consumes the rest of the mode's units. -/
def Mode.ResolvedBy (m : Mode) (s : State) (resolve : State → Access Byte) : Prop :=
  ∃ us : List CycleUnit, .read s.pc.toNat :: us = m.units s ∧
    resolve s.charge.advance = .done (m.datum s) (s.spent m.length (m.length + (m.dataUnits s).length)) us

theorem loadInstr_eq_loadOf {m : Mode} {s : State} {resolve : State → Access Byte} (h : m.ResolvedBy s resolve)
    (r : Reg) : loadInstr r resolve s = loadOf r m s := by
  obtain ⟨us, units_eq, resolved⟩ := h
  rw [loadInstr_done resolved, units_eq, State.spent, flagUpdate_setReg_eq_afterLoad, loadOf, Mode.length_units]

/-- The operand byte comes from `operand`, fetched after the opcode. -/
def SuppliesByte (operand : State → Access Byte) (s : State) (d : Byte) : Prop :=
  operand s.charge.advance = .done d (s.spent 2 2) [.read (s.pc + 1).toNat]

/-- The operand word comes from `operand`, fetched after the opcode. -/
def SuppliesWord (operand : State → Access Addr) (s : State) (a : Addr) : Prop :=
  operand s.charge.advance = .done a (s.spent 3 3) [.read (s.pc + 1).toNat, .read (s.pc + 2).toNat]

theorem decodedByte_supplies (d : Byte) (s : State) : SuppliesByte (decodedByte d) s d := by
  simp only [SuppliesByte, decodedByte_eq, charge_advance_eq_spent, spent_charge, spent_advance]
  rfl

theorem fetchByte_supplies (s : State) : SuppliesByte fetchByte s (s.byteAt (s.pc + 1)) := by
  simp only [SuppliesByte, fetchByte_eq, charge_advance_eq_spent, spent_charge, spent_advance]
  rfl

theorem decodedWord_supplies (a : Addr) (s : State) : SuppliesWord (decodedWord a) s a := by
  have next : s.pc + 1 + 1 = s.pc + 2 := by bv_omega
  simp only [SuppliesWord, decodedWord_eq, ← next, charge_advance_eq_spent, spent_charge, spent_advance]
  rfl

theorem fetchWord_supplies (s : State) :
    SuppliesWord fetchWord s (word (s.byteAt (s.pc + 2)) (s.byteAt (s.pc + 1))) := by
  have next : s.pc + 1 + 1 = s.pc + 2 := by bv_omega
  simp only [SuppliesWord, fetchWord_eq, ← next, charge_advance_eq_spent, spent_charge, spent_advance]
  rfl

/-- The charges of an indexed read: one for the page-cross unit where there is one, and one for the read. -/
theorem spent_charge_indexed (len : Nat) (units : Int) (s : State) (base : Addr) (off : Byte) (last : CycleUnit) :
    (if pageCross base off then (s.spent len units).charge.charge else (s.spent len units).charge) =
      s.spent len (units + (crossIdle base off ++ [last]).length) := by
  rw [crossIdle_eq]
  split
  · rw [spent_charge, spent_charge, Int.add_assoc]
    rfl
  · exact spent_charge len units s

/-- Four units and an indexed read are two units, the two reads of the pointer and an indexed read. -/
theorem four_add_length (low high : CycleUnit) (us : List CycleUnit) :
    (4 : Int) + us.length = 2 + (([low, high] ++ us).length : Int) := by
  rw [List.length_append, Nat.cast_add]
  exact Int.add_assoc 2 2 us.length

section
variable {operand : State → Access Byte} {s : State} {d : Byte} (h : SuppliesByte operand s d)
include h

theorem resolveImm_resolves : (Mode.imm d).ResolvedBy s (resolveImm operand) :=
  ⟨_, rfl, resolveImm_done h⟩

theorem resolveZp_resolves : (Mode.zp d).ResolvedBy s (resolveZp operand) := by
  refine ⟨_, rfl, ?_⟩
  rw [resolveZp_done h, zext16_eq_zeroPageSum, spent_charge]
  rfl

theorem resolveZpIdx_resolves (off : Byte) : (Mode.zpIdx d off).ResolvedBy s (resolveZpIdx operand off) := by
  refine ⟨_, rfl, ?_⟩
  rw [resolveZpIdx_done h, zext16_add, spent_charge]
  rfl

theorem resolveIndX_resolves : (Mode.indX d s.x).ResolvedBy s (resolveIndX operand) := by
  have pointer : word (s.byteAt (zext16 (d + s.x + 1))) (s.byteAt (zext16 (d + s.x))) = pointerAt (d + s.x) s := by
    rw [zext16_add, zext16_eq_zeroPageSum (d + s.x), word_eq_pointerAt]
  refine ⟨_, rfl, ?_⟩
  rw [resolveIndX_done h rfl pointer, zext16_add _ 1, zext16_eq_zeroPageSum (d + (s.spent 2 2).x)]
  simp only [spent_charge]
  rfl

theorem resolveIndY_resolves : (Mode.indY d s.y).ResolvedBy s (resolveIndY operand) := by
  have pointer : word (s.byteAt (zext16 (d + 1))) (s.byteAt (zext16 d)) = pointerAt d s := by
    rw [zext16_add, zext16_eq_zeroPageSum, word_eq_pointerAt]
  have pointerRead : (s.spent 2 2).charge.charge = s.spent 2 4 := by
    rw [spent_charge, spent_charge]
    rfl
  refine ⟨_, rfl, ?_⟩
  rw [resolveIndY_done h pointer rfl, pointerRead,
    spent_charge_indexed 2 4 s _ _ (.read (indexedAddr (pointerAt d s) s.y).toNat), add_zext16, ← crossIdle_eq,
    zext16_add d 1, zext16_eq_zeroPageSum d,
    four_add_length (.read (zeroPageSum d 0).toNat) (.read (zeroPageSum d 1).toNat)]
  rfl

end

section
variable {operand : State → Access Addr} {s : State} {a : Addr} (h : SuppliesWord operand s a)
include h

theorem resolveAbs_resolves : (Mode.abs a).ResolvedBy s (resolveAbs operand) := by
  refine ⟨_, rfl, ?_⟩
  rw [resolveAbs_done h, spent_charge]
  rfl

theorem resolveAbsIdx_resolves (off : Byte) : (Mode.absIdx a off).ResolvedBy s (resolveAbsIdx operand off) := by
  refine ⟨_, rfl, ?_⟩
  rw [resolveAbsIdx_done h, spent_charge_indexed 3 3 s _ _ (.read (indexedAddr a off).toNat), add_zext16, ← crossIdle_eq]
  rfl

end

/-! ### All eighteen loads -/

theorem completes_loadInstr_eq {m : Mode} {s : State} {resolve : State → Access Byte} (h : m.ResolvedBy s resolve)
    (r : Reg) : completes (loadInstr r resolve s) = completes (loadOf r m s) :=
  congrArg completes (loadInstr_eq_loadOf h r)

/-- Every load completes, from every state, in the state that its mode, byte, length and units say (42_load_family.md R101). -/
theorem exec_eq (i : Instr) (s : State) : exec i s = completes (loadOf (targetOf i) (modeOf i s) s) := by
  have operandByte (d : Byte) := decodedByte_supplies d s
  have operandWord (a : Addr) := decodedWord_supplies a s
  cases i with
  | ldaImm d => exact completes_loadInstr_eq (resolveImm_resolves (operandByte d)) .a
  | ldaZp d => exact completes_loadInstr_eq (resolveZp_resolves (operandByte d)) .a
  | ldaZpX d => exact completes_loadInstr_eq (resolveZpIdx_resolves (operandByte d) s.x) .a
  | ldaAbs a => exact completes_loadInstr_eq (resolveAbs_resolves (operandWord a)) .a
  | ldaAbsX a => exact completes_loadInstr_eq (resolveAbsIdx_resolves (operandWord a) s.x) .a
  | ldaAbsY a => exact completes_loadInstr_eq (resolveAbsIdx_resolves (operandWord a) s.y) .a
  | ldaIndX d => exact completes_loadInstr_eq (resolveIndX_resolves (operandByte d)) .a
  | ldaIndY d => exact completes_loadInstr_eq (resolveIndY_resolves (operandByte d)) .a
  | ldxImm d => exact completes_loadInstr_eq (resolveImm_resolves (operandByte d)) .x
  | ldxZp d => exact completes_loadInstr_eq (resolveZp_resolves (operandByte d)) .x
  | ldxZpY d => exact completes_loadInstr_eq (resolveZpIdx_resolves (operandByte d) s.y) .x
  | ldxAbs a => exact completes_loadInstr_eq (resolveAbs_resolves (operandWord a)) .x
  | ldxAbsY a => exact completes_loadInstr_eq (resolveAbsIdx_resolves (operandWord a) s.y) .x
  | ldyImm d => exact completes_loadInstr_eq (resolveImm_resolves (operandByte d)) .y
  | ldyZp d => exact completes_loadInstr_eq (resolveZp_resolves (operandByte d)) .y
  | ldyZpX d => exact completes_loadInstr_eq (resolveZpIdx_resolves (operandByte d) s.x) .y
  | ldyAbs a => exact completes_loadInstr_eq (resolveAbs_resolves (operandWord a)) .y
  | ldyAbsX a => exact completes_loadInstr_eq (resolveAbsIdx_resolves (operandWord a) s.x) .y

/-- `exec_eq` with the next state written out. -/
theorem exec_eq_next (i : Instr) (s : State) :
    exec i s = .next
      (afterLoad (targetOf i) ((modeOf i s).datum s) (modeOf i s).length ((modeOf i s).units s).length s) :=
  exec_eq i s

/-- Settles O12: `exec_eq_next` at the three instructions. -/
theorem immediateLoadsTakeTheOperand : Obligations.ImmediateLoadsTakeTheOperand := by
  unfold Obligations.ImmediateLoadsTakeTheOperand
  exact fun d s => ⟨exec_eq_next (.ldaImm d) s, exec_eq_next (.ldxImm d) s, exec_eq_next (.ldyImm d) s⟩

/-- Settles O13: `exec_eq_next` at the three instructions. -/
theorem zeroPageLoadsReadTheZeroPage : Obligations.ZeroPageLoadsReadTheZeroPage := by
  unfold Obligations.ZeroPageLoadsReadTheZeroPage
  exact fun d s => ⟨exec_eq_next (.ldaZp d) s, exec_eq_next (.ldxZp d) s, exec_eq_next (.ldyZp d) s⟩

/-- Settles O14: `exec_eq_next` at the three instructions, each with its index register. -/
theorem zeroPageIndexedLoadsWrapInTheZeroPage : Obligations.ZeroPageIndexedLoadsWrapInTheZeroPage := by
  unfold Obligations.ZeroPageIndexedLoadsWrapInTheZeroPage
  exact fun d s => ⟨exec_eq_next (.ldaZpX d) s, exec_eq_next (.ldxZpY d) s, exec_eq_next (.ldyZpX d) s⟩

/-- Settles O15: `exec_eq_next` at the three instructions. -/
theorem absoluteLoadsReadTheAddress : Obligations.AbsoluteLoadsReadTheAddress := by
  unfold Obligations.AbsoluteLoadsReadTheAddress
  exact fun a s => ⟨exec_eq_next (.ldaAbs a) s, exec_eq_next (.ldxAbs a) s, exec_eq_next (.ldyAbs a) s⟩

theorem length_units_absIdx (a : Addr) (off : Byte) (s : State) :
    (((Mode.absIdx a off).units s).length : Int) = 4 + crossUnits a off := by
  have data : (((Mode.absIdx a off).dataUnits s).length : Int) = crossUnits a off + 1 := by
    rw [Mode.dataUnits, List.length_append, Nat.cast_add, length_crossIdle]
    rfl
  rw [Mode.length_units, data, Mode.length]
  omega

theorem length_units_indY (d off : Byte) (s : State) :
    (((Mode.indY d off).units s).length : Int) = 5 + crossUnits (pointerAt d s) off := by
  have data : (((Mode.indY d off).dataUnits s).length : Int) = 2 + (crossUnits (pointerAt d s) off + 1) := by
    rw [Mode.dataUnits, List.length_append, List.length_append, Nat.cast_add, Nat.cast_add, length_crossIdle]
    rfl
  rw [Mode.length_units, data, Mode.length]
  omega

/-- What an absolute indexed load leaves, its cost written with `crossUnits`. -/
theorem exec_of_absIdx {i : Instr} {s : State} {a : Addr} {off : Byte} (hm : modeOf i s = .absIdx a off) :
    exec i s = .next (afterLoad (targetOf i) (s.byteAt (indexedAddr a off)) 3 (4 + crossUnits a off) s) := by
  rw [exec_eq_next, hm, length_units_absIdx]
  rfl

/-- Settles O16: `exec_of_absIdx` at the four instructions, each with its index register. -/
theorem absoluteIndexedLoadsChargePageCrossing : Obligations.AbsoluteIndexedLoadsChargePageCrossing := by
  unfold Obligations.AbsoluteIndexedLoadsChargePageCrossing
  exact fun a s => ⟨exec_of_absIdx rfl, exec_of_absIdx rfl, exec_of_absIdx rfl, exec_of_absIdx rfl⟩

/-- Settles O17: `exec_eq_next`; the number of units is 6 whatever the pointer. -/
theorem indexedIndirectLoadFollowsZeroPagePointer : Obligations.IndexedIndirectLoadFollowsZeroPagePointer := by
  unfold Obligations.IndexedIndirectLoadFollowsZeroPagePointer
  exact fun d s => exec_eq_next (.ldaIndX d) s

/-- Settles O18: `exec_eq_next`; the number of units is `length_units_indY`. -/
theorem indirectIndexedLoadAddsYToPointer : Obligations.IndirectIndexedLoadAddsYToPointer := by
  unfold Obligations.IndirectIndexedLoadAddsYToPointer
  intro d s
  rw [exec_eq_next, modeOf, length_units_indY]
  rfl

end Sys2Proof.Machine

/-! ## O20, O23, O24: what a load leaves alone, and what it does not read

`afterLoad` says what is left alone. What is not read follows from where a mode's byte and units come from: the mode itself,
memory and pc (`Mode.datum_congr`, `Mode.units_congr`). -/

namespace Sys2Proof.Machine

theorem afterLoad_reg_of_ne {r q : Reg} (h : q ≠ r) (v : Byte) (len : Nat) (units : Int) (s : State) :
    (afterLoad r v len units s).reg q = s.reg q := by
  cases q <;> exact if_neg (Ne.symm h)

theorem afterLoad_reg_self (r : Reg) (v : Byte) (len : Nat) (units : Int) (s : State) :
    (afterLoad r v len units s).reg r = v := by
  cases r <;> rfl

/-- Z and N may have been raised; neither was cleared, and no other flag differs. -/
def Flags.RaisedTo (f g : Flags) : Prop := ∃ z n : Bool, g = { f with z := f.z || z, n := f.n || n }

theorem Flags.RaisedTo.refl (f : Flags) : f.RaisedTo f := ⟨false, false, by simp⟩

theorem flagsAfterLoad_raised (v : Byte) (f : Flags) : f.RaisedTo (flagsAfterLoad v f) := by
  unfold flagsAfterLoad
  split_ifs
  · exact ⟨true, false, by simp⟩
  · exact Flags.RaisedTo.refl f
  · exact ⟨false, true, by simp⟩

/-- Settles O20: the next state is `afterLoad`, which says field by field what is kept. -/
theorem loadsLeaveEverythingElseUnchanged : Obligations.LoadsLeaveEverythingElseUnchanged := by
  unfold Obligations.LoadsLeaveEverythingElseUnchanged
  intro i s t h
  rw [exec_eq_next] at h
  obtain rfl := Host.Outcome.next.inj h
  obtain ⟨z, n, flags_eq⟩ := flagsAfterLoad_raised ((modeOf i s).datum s) s.flags
  refine ⟨fun r hr => afterLoad_reg_of_ne hr .., rfl, ?_⟩
  simp only [afterLoad, flags_eq, and_self, implies_true]

/-- A load's byte comes from its mode and memory alone. -/
theorem Mode.datum_congr {s t : State} (h : s.mem = t.mem) (m : Mode) : m.datum s = m.datum t := by
  have byte (a : Addr) : s.byteAt a = t.byteAt a := by rw [State.byteAt, State.byteAt, h]
  have pointer (p : Byte) : pointerAt p s = pointerAt p t := by rw [pointerAt, pointerAt, byte, byte]
  cases m <;> simp only [datum, byte, pointer]

/-- A load's units come from its mode, pc and memory alone. -/
theorem Mode.units_congr {s t : State} (hmem : s.mem = t.mem) (hpc : s.pc = t.pc) (m : Mode) : m.units s = m.units t := by
  have pointer (p : Byte) : pointerAt p s = pointerAt p t := by
    rw [pointerAt, pointerAt, State.byteAt, State.byteAt, State.byteAt, State.byteAt, hmem]
  cases m <;> simp only [units, codeUnits, dataUnits, pointer, hpc]

/-- No load is indexed by its target (10_state.md R12). -/
theorem modeOf_setReg_target (i : Instr) (s : State) (v : Byte) : modeOf i (s.setReg (targetOf i) v) = modeOf i s := by
  cases i <;> rfl

theorem afterLoad_setReg (r : Reg) (w v : Byte) (len : Nat) (units : Int) (s : State) :
    afterLoad r v len units (s.setReg r w) = afterLoad r v len units s := by
  cases r <;> rfl

/-- Settles O23: neither the mode, nor its byte, nor its units come from the target. -/
theorem loadsNeverReadTheirTarget : Obligations.LoadsNeverReadTheirTarget := by
  unfold Obligations.LoadsNeverReadTheirTarget
  intro i s v
  rw [exec_eq_next, exec_eq_next, modeOf_setReg_target, afterLoad_setReg, Mode.datum_congr (setReg_mem ..),
    Mode.units_congr (setReg_mem ..) (setReg_pc ..)]

/-- Settles O24: the mode comes from X and Y, its byte and units from memory and pc. -/
theorem loadsReadNoFlagStackPointerOrLog : Obligations.LoadsReadNoFlagStackPointerOrLog := by
  unfold Obligations.LoadsReadNoFlagStackPointerOrLog
  intro i s t a sp f l h
  rw [exec_eq_next] at h
  obtain rfl := Host.Outcome.next.inj h
  have mode_eq : modeOf i { s with a := a, sp := sp, flags := f, log := l } = modeOf i s := by cases i <;> rfl
  rw [exec_eq_next, mode_eq, afterLoad_reg_self, Mode.datum_congr (t := s) rfl, Mode.units_congr (t := s) rfl rfl]
  generalize targetOf i = r
  cases r <;> rfl

end Sys2Proof.Machine

/-! ## O5 to O11: one step

The spec's own step fetches its operand where the machine's has decoded it: the same resolver lemmas serve both
(`specStep_of_instrAt`). What an instruction can do is then said once, in `runInstruction_cases`. -/

namespace Sys2Proof.Machine

/-! ### Decoding first, or fetching as it goes -/

/-- The encoding of the instruction at pc is what stands at pc (30_encoding.md R50). -/
theorem encode_of_instrAt {s : State} {i : Instr} (h : s.instrAt = some i) :
    encode i = [s.byteAt s.pc, s.byteAt (s.pc + 1), s.byteAt (s.pc + 2)].take (lengthOf (s.byteAt s.pc)) :=
  encode_of_decodeInstr h

theorem length_encode_of_instrAt {s : State} {i : Instr} (h : s.instrAt = some i) :
    (encode i).length = lengthOf (s.byteAt s.pc) :=
  length_encode_of_decodeInstr h

theorem fetched_of_encodeF2 {s : State} {i : Instr} {op d : Byte} (h : s.instrAt = some i)
    (henc : encode i = encodeF2 op d) : s.byteAt s.pc = op ∧ SuppliesByte fetchByte s d := by
  have bytes := encode_of_instrAt h
  rw [← length_encode_of_instrAt h, henc, encodeF2] at bytes
  obtain ⟨hop, hd⟩ : op = s.byteAt s.pc ∧ d = s.byteAt (s.pc + 1) := by simpa using bytes
  exact ⟨hop.symm, hd ▸ fetchByte_supplies s⟩

theorem fetched_of_encodeF3 {s : State} {i : Instr} {op : Byte} {a : Addr} (h : s.instrAt = some i)
    (henc : encode i = encodeF3 op a) : s.byteAt s.pc = op ∧ SuppliesWord fetchWord s a := by
  have bytes := encode_of_instrAt h
  rw [← length_encode_of_instrAt h, henc, encodeF3] at bytes
  obtain ⟨hop, hlo, hhi⟩ : op = s.byteAt s.pc ∧ lo a = s.byteAt (s.pc + 1) ∧ hi a = s.byteAt (s.pc + 2) := by
    simpa using bytes
  have supplied := fetchWord_supplies s
  rw [← hlo, ← hhi, word_hi_lo] at supplied
  exact ⟨hop.symm, supplied⟩

/-- At an opcode with a handler, the spec's step is the load that the handler's resolver stands for. -/
theorem specStep_of_handler {s : State} {op : Byte} {r : Reg} {m : Mode} {resolve : State → State → Access Byte}
    (hop : s.byteAt s.pc = op) (hhandler : handlerOf op = some fun t => load r (resolve t) t)
    (hm : m.ResolvedBy s (resolve s.charge.advance)) (stubs : List Byte) : specStep stubs s = loadOf r m s := by
  rw [← loadInstr_eq_loadOf hm, specStep, loadInstr, fetchOpcode_eq, Access.andThen_done, Access.andThen_done, hop,
    hhandler]

/-- The spec's step at a decoded instruction: the handler's operand fetch supplies what the decoder read. -/
theorem specStep_of_instrAt {s : State} {i : Instr} (h : s.instrAt = some i) (stubs : List Byte) :
    specStep stubs s = loadOf (targetOf i) (modeOf i s) s := by
  have byteForm {op d : Byte} {m : Mode} {resolve : State → State → Access Byte} (henc : encode i = encodeF2 op d)
      (hh : handlerOf op = some fun t => load (targetOf i) (resolve t) t)
      (hm : SuppliesByte fetchByte s d → m.ResolvedBy s (resolve s.charge.advance)) :
      specStep stubs s = loadOf (targetOf i) m s :=
    have ⟨hop, hd⟩ := fetched_of_encodeF2 h henc
    specStep_of_handler hop hh (hm hd) stubs
  have wordForm {op : Byte} {a : Addr} {m : Mode} {resolve : State → State → Access Byte}
      (henc : encode i = encodeF3 op a) (hh : handlerOf op = some fun t => load (targetOf i) (resolve t) t)
      (hm : SuppliesWord fetchWord s a → m.ResolvedBy s (resolve s.charge.advance)) :
      specStep stubs s = loadOf (targetOf i) m s :=
    have ⟨hop, ha⟩ := fetched_of_encodeF3 h henc
    specStep_of_handler hop hh (hm ha) stubs
  cases i with
  | ldaImm d => exact byteForm rfl rfl resolveImm_resolves
  | ldaZp d => exact byteForm rfl rfl resolveZp_resolves
  | ldaZpX d => exact byteForm rfl rfl (resolveZpIdx_resolves · s.x)
  | ldaAbs a => exact wordForm rfl rfl resolveAbs_resolves
  | ldaAbsX a => exact wordForm rfl rfl (resolveAbsIdx_resolves · s.x)
  | ldaAbsY a => exact wordForm rfl rfl (resolveAbsIdx_resolves · s.y)
  | ldaIndX d => exact byteForm rfl rfl resolveIndX_resolves
  | ldaIndY d => exact byteForm rfl rfl resolveIndY_resolves
  | ldxImm d => exact byteForm rfl rfl resolveImm_resolves
  | ldxZp d => exact byteForm rfl rfl resolveZp_resolves
  | ldxZpY d => exact byteForm rfl rfl (resolveZpIdx_resolves · s.y)
  | ldxAbs a => exact wordForm rfl rfl resolveAbs_resolves
  | ldxAbsY a => exact wordForm rfl rfl (resolveAbsIdx_resolves · s.y)
  | ldyImm d => exact byteForm rfl rfl resolveImm_resolves
  | ldyZp d => exact byteForm rfl rfl resolveZp_resolves
  | ldyZpX d => exact byteForm rfl rfl (resolveZpIdx_resolves · s.x)
  | ldyAbs a => exact wordForm rfl rfl resolveAbs_resolves
  | ldyAbsX a => exact wordForm rfl rfl (resolveAbsIdx_resolves · s.x)

/-- The bytes with a handler are the bytes with a row. -/
theorem isSome_handlerOf : ∀ op : Byte, (handlerOf op).isSome = (formOf op).isSome := by decide

/-- Where nothing is decoded, the byte at pc has no row. -/
theorem formOf_eq_none_of_instrAt {s : State} (h : s.instrAt = none) : formOf (s.byteAt s.pc) = none := by
  rw [← Option.not_isSome_iff_eq_none, ← isSome_decodeInstr _ (s.byteAt (s.pc + 1)) (s.byteAt (s.pc + 2)),
    ← State.instrAt, h]
  exact Bool.false_ne_true

/-- At a byte without a handler, the spec's step and the machine's do the same. -/
theorem specStep_of_instrAt_none {s : State} (h : s.instrAt = none) (stubs : List Byte) :
    specStep stubs s = otherOpcode stubs s := by
  have noHandler : handlerOf (s.byteAt s.pc) = none := by
    rw [← Option.not_isSome_iff_eq_none, isSome_handlerOf, formOf_eq_none_of_instrAt h]
    exact Bool.false_ne_true
  rw [specStep, otherOpcode, fetchOpcode_eq, Access.andThen_done, Access.andThen_done, noHandler]

/-- Settles O6: a load by `exec_eq` and `specStep_of_instrAt`, any other byte by `specStep_of_instrAt_none`. -/
theorem stepAgreesWithSpecPseudocode : Obligations.StepAgreesWithSpecPseudocode := by
  unfold Obligations.StepAgreesWithSpecPseudocode
  intro stubs s
  cases hi : s.instrAt with
  | some i => rw [runInstruction_some hi, specStep_of_instrAt hi, exec_eq, completes]
  | none => rw [runInstruction, hi, specStep_of_instrAt_none hi, completes]

/-! ### Opcodes without a handler -/

/-- A turn with budget at a byte that is no load, stub or not (43_unrecognized_opcodes.md R120, R122). -/
theorem stepWith_of_no_row {s : State} {c : Int} (hc : s.cyc = some c) (hpos : 0 < c)
    (h2 : s.byteAt s.pc ∉ opcodesF2) (h3 : s.byteAt s.pc ∉ opcodesF3) (stubs : List Byte) :
    stepWith stubs s = .next { s with
      pc := BitVec.ofNat 16 (s.pc.toNat + 1)
      cyc := some (c - 1)
      log := if s.byteAt s.pc ∈ stubs then s.log else s.log ++ [.unknownOpcode (s.byteAt s.pc) s.pc] } := by
  rw [stepWith_of_pos hc hpos, runInstruction_none (instrAt_eq_none h2 h3), charge_advance_eq_spent, State.spent, hc]
  split <;> rfl

/-- Settles O8: `stepWith_of_no_row`, off the stubs. -/
theorem unrecognizedByteIsReportedAndSkipped : Obligations.UnrecognizedByteIsReportedAndSkipped := by
  unfold Obligations.UnrecognizedByteIsReportedAndSkipped
  intro stubs s c hc hpos h2 h3 noStub
  rw [stepWith_of_no_row hc hpos h2 h3, if_neg noStub]

/-- Settles O9: a stub has no row, so `stepWith_of_no_row` applies, on the stubs. -/
theorem stubByteIsSkippedSilently : Obligations.StubByteIsSkippedSilently := by
  unfold Obligations.StubByteIsSkippedSilently
  intro stubs s c wf hc hpos stub
  have noRow : formOf (s.byteAt s.pc) = none := Option.isNone_iff_eq_none.1 (List.all_eq_true.1 wf _ stub)
  obtain ⟨h2, h3⟩ := (formOf_eq_none_iff _).1 noRow
  rw [stepWith_of_no_row hc hpos h2 h3, if_pos stub]

/-- Settles O5: a turn with budget is one instruction, and that is the decoded one. -/
theorem stepRunsDecodedInstruction : Obligations.StepRunsDecodedInstruction := by
  unfold Obligations.StepRunsDecodedInstruction
  intro s c i hc hpos decoded
  rw [step, stepWith_of_pos hc hpos, runInstruction_some decoded]

/-- Settles O7: the two branches of the loop in which no instruction runs. -/
theorem haltedMachineRunsNothing : Obligations.HaltedMachineRunsNothing := by
  unfold Obligations.HaltedMachineRunsNothing
  intro stubs s
  exact ⟨fun hc => stepWith_of_none hc stubs, fun c hc hle => stepWith_of_exhausted hc (Int.not_lt.2 hle) stubs⟩

/-! ### What an instruction can do -/

/-- Everything an instruction can do: a load as its mode says, or the fetch of a byte without a handler. -/
theorem runInstruction_cases {stubs : List Byte} {s t : State} (h : runInstruction stubs s = .next t) :
    (∃ i : Instr, s.instrAt = some i ∧
      t = afterLoad (targetOf i) ((modeOf i s).datum s) (modeOf i s).length ((modeOf i s).units s).length s) ∨
    (s.instrAt = none ∧
      (t = s.spent 1 1 ∨ t = (s.spent 1 1).report (.unknownOpcode (s.byteAt s.pc) s.pc))) := by
  cases hi : s.instrAt with
  | some i =>
    rw [runInstruction_some hi, exec_eq_next] at h
    exact .inl ⟨i, rfl, (Host.Outcome.next.inj h).symm⟩
  | none =>
    rw [runInstruction_none hi, charge_advance_eq_spent] at h
    obtain rfl := Host.Outcome.next.inj h
    refine .inr ⟨rfl, ?_⟩
    split
    · exact .inl rfl
    · exact .inr rfl

theorem modeOf_length (i : Instr) (s : State) : (modeOf i s).length = (encode i).length := by
  cases i <;> rfl

/-- Settles O10: a load's length is that of its encoding; a byte without a handler has no row and length 1. -/
theorem pcMovesPastTheBytesConsumed : Obligations.PcMovesPastTheBytesConsumed := by
  unfold Obligations.PcMovesPastTheBytesConsumed
  intro stubs s t h
  rcases runInstruction_cases h with ⟨i, hi, rfl⟩ | ⟨hi, outcome⟩
  · rw [← length_encode_of_instrAt hi, ← modeOf_length i s, afterLoad]
  · rw [lengthOf, formOf_eq_none_of_instrAt hi]
    rcases outcome with rfl | rfl <;> rfl

/-! ### The units of a step -/

@[simp] theorem readsOf_nil : readsOf [] = [] := rfl

@[simp] theorem readsOf_read_cons (a : Nat) (us : List CycleUnit) : readsOf (.read a :: us) = a :: readsOf us := rfl

@[simp] theorem readsOf_idle_cons (us : List CycleUnit) : readsOf (.idle :: us) = readsOf us := rfl

@[simp] theorem readsOf_append (us us' : List CycleUnit) : readsOf (us ++ us') = readsOf us ++ readsOf us' :=
  List.filterMap_append

/-- The page-cross unit is no read. -/
@[simp] theorem readsOf_crossIdle (base : Addr) (off : Byte) : readsOf (crossIdle base off) = [] := by
  unfold crossIdle
  split <;> rfl

/-- A load's units are read at 16-bit addresses. -/
theorem Mode.reads_inRange (s : State) (m : Mode) : ∀ a ∈ readsOf (m.units s), a < 65536 := by
  have inRange (a : Addr) : a.toNat < 65536 := a.isLt
  cases m <;> simp [Mode.units, codeUnits, dataUnits, inRange, -BitVec.toNat_add]

/-- The units of the spec's step at a decoded instruction. -/
theorem specStep_units_of_instrAt {s : State} {i : Instr} (h : s.instrAt = some i) (stubs : List Byte) :
    (specStep stubs s).units = (modeOf i s).units s := by
  rw [specStep_of_instrAt h, loadOf, Access.units_done]

theorem specStep_units_of_instrAt_none {s : State} (h : s.instrAt = none) (stubs : List Byte) :
    (specStep stubs s).units = [.read s.pc.toNat] := by
  rw [specStep_of_instrAt_none h, otherOpcode_eq, Access.units_done]

theorem specStep_reads_inRange (stubs : List Byte) (s : State) : ∀ a ∈ readsOf (specStep stubs s).units, a < 65536 := by
  cases hi : s.instrAt with
  | some i =>
    rw [specStep_units_of_instrAt hi]
    exact Mode.reads_inRange s _
  | none =>
    rw [specStep_units_of_instrAt_none hi]
    simpa using s.pc.isLt

/-! ### Reports -/

theorem runInstruction_log {stubs : List Byte} {s t : State} (h : runInstruction stubs s = .next t) :
    t.log = s.log ∨ t.log = s.log ++ [.unknownOpcode (s.byteAt s.pc) s.pc] := by
  rcases runInstruction_cases h with ⟨i, -, rfl⟩ | ⟨-, rfl | rfl⟩
  · exact .inl rfl
  · exact .inl rfl
  · exact .inr rfl

/-- Everything a turn of the loop can do (40_fetch_execute_loop.md R66). -/
theorem stepWith_cases {stubs : List Byte} {s t : State} (h : stepWith stubs s = .next t) :
    runInstruction stubs s = .next t ∨ t = endExecute s ∨ t = s := by
  unfold stepWith at h
  split at h
  · split at h
    · exact .inl h
    · exact .inr (.inl (Host.Outcome.next.inj h).symm)
  · exact .inr (.inr (Host.Outcome.next.inj h).symm)

/-- Settles O11: an instruction reports at most the byte at pc, and the other turns report nothing. -/
theorem coreStaysInRangeAndReportsOnce : Obligations.CoreStaysInRangeAndReportsOnce := by
  unfold Obligations.CoreStaysInRangeAndReportsOnce
  intro stubs s t h
  refine ⟨?log, specStep_reads_inRange stubs s⟩
  rcases stepWith_cases h with ran | rfl | rfl
  · exact runInstruction_log ran
  · exact .inl rfl
  · exact .inl rfl

end Sys2Proof.Machine

/-! ## O27, O28: the units of a step

Which units a step consumes was said with what it does; here they are counted, and written out opcode by opcode. -/

namespace Sys2Proof.Machine

theorem crossIdle_cases (base : Addr) (off : Byte) : crossIdle base off = [] ∨ crossIdle base off = [.idle] := by
  unfold crossIdle
  split
  · exact .inr rfl
  · exact .inl rfl

/-- The costs of 41_addressing_modes.md section 3, and the reads among them (R93). -/
theorem Mode.units_bounds (s : State) (m : Mode) :
    2 ≤ (m.units s).length ∧ (m.units s).length ≤ 6 ∧ (readsOf (m.units s)).length ≤ 5 := by
  cases m with
  | imm d | zp d | zpIdx d off | abs a | indX d off => simp [units, codeUnits, dataUnits]
  | absIdx a off => rcases crossIdle_cases a off with h | h <;> simp [units, codeUnits, dataUnits, h]
  | indY d off => rcases crossIdle_cases (pointerAt d s) off with h | h <;> simp [units, codeUnits, dataUnits, h]

theorem specStep_units_bounds (stubs : List Byte) (s : State) :
    1 ≤ (specStep stubs s).units.length ∧ (specStep stubs s).units.length ≤ 6 ∧
      (readsOf (specStep stubs s).units).length ≤ 5 := by
  cases hi : s.instrAt with
  | some i =>
    rw [specStep_units_of_instrAt hi]
    obtain ⟨least, most, reads⟩ := (modeOf i s).units_bounds s
    exact ⟨by omega, most, reads⟩
  | none =>
    rw [specStep_units_of_instrAt_none hi]
    simp

theorem runInstruction_cyc {stubs : List Byte} {s t : State} (h : runInstruction stubs s = .next t) :
    t.cyc = s.cyc.map fun c => c - ((specStep stubs s).units.length : Int) := by
  rcases runInstruction_cases h with ⟨i, hi, rfl⟩ | ⟨hi, rfl | rfl⟩
  · rw [specStep_units_of_instrAt hi, afterLoad]
  · rw [specStep_units_of_instrAt_none hi]
    rfl
  · rw [specStep_units_of_instrAt_none hi]
    rfl

/-- Settles O28: the charge is the number of units, and that number is the mode's. -/
theorem everyUnitIsChargedOnce : Obligations.EveryUnitIsChargedOnce := by
  unfold Obligations.EveryUnitIsChargedOnce
  exact fun stubs s t h => ⟨runInstruction_cyc h, specStep_units_bounds stubs s⟩

/-! ### The read order table -/

theorem specStep_units_of_f2 {s : State} {op : Byte} {build : Byte → Instr} (hop : s.byteAt s.pc = op)
    (hform : formOf op = some (.f2 build)) (stubs : List Byte) :
    (specStep stubs s).units = (modeOf (build (s.byteAt (s.pc + 1))) s).units s :=
  specStep_units_of_instrAt (by rw [State.instrAt, decodeInstr, hop, hform]) stubs

theorem specStep_units_of_f3 {s : State} {op : Byte} {build : Addr → Instr} (hop : s.byteAt s.pc = op)
    (hform : formOf op = some (.f3 build)) (stubs : List Byte) :
    (specStep stubs s).units = (modeOf (build (word (s.byteAt (s.pc + 2)) (s.byteAt (s.pc + 1)))) s).units s :=
  specStep_units_of_instrAt (by rw [State.instrAt, decodeInstr, hop, hform]) stubs

theorem toNat_zeroPageSum (d off : Byte) : (zeroPageSum d off).toNat = (d.toNat + off.toNat) % 256 := by
  rw [zeroPageSum, BitVec.toNat_ofNat]
  omega

theorem toNat_zeroPageSum_zero (d : Byte) : (zeroPageSum d 0).toNat = d.toNat := by
  rw [← zext16_eq_zeroPageSum, toNat_zext16]

theorem toNat_pc_add_one (pc : Addr) : (pc + 1).toNat = (pc.toNat + 1) % 65536 := BitVec.toNat_add pc 1

theorem toNat_pc_add_two (pc : Addr) : (pc + 2).toNat = (pc.toNat + 2) % 65536 := BitVec.toNat_add pc 2

theorem pc_add_two_eq_ofNat_mod (pc : Addr) : pc + 2 = BitVec.ofNat 16 ((pc.toNat + 2) % 65536) := by
  bv_omega

theorem word_eq_ofNat (h l : Byte) : word h l = BitVec.ofNat 16 (256 * h.toNat + l.toNat) := by
  rw [← toNat_word, BitVec.ofNat_toNat, BitVec.setWidth_eq]

section
variable (s : State)

theorem Mode.units_imm (d : Byte) : (imm d).units s = [.read s.pc.toNat, .read ((s.pc.toNat + 1) % 65536)] := by
  rw [units, codeUnits, toNat_pc_add_one]
  rfl

theorem Mode.units_zp (d : Byte) :
    (zp d).units s = [.read s.pc.toNat, .read ((s.pc.toNat + 1) % 65536), .read d.toNat] := by
  rw [units, codeUnits, dataUnits, toNat_pc_add_one, toNat_zeroPageSum_zero]
  rfl

theorem Mode.units_zpIdx (d off : Byte) : (zpIdx d off).units s =
    [.read s.pc.toNat, .read ((s.pc.toNat + 1) % 65536), .read ((d.toNat + off.toNat) % 256)] := by
  rw [units, codeUnits, dataUnits, toNat_pc_add_one, toNat_zeroPageSum]
  rfl

theorem Mode.units_abs (a : Addr) : (abs a).units s =
    [.read s.pc.toNat, .read ((s.pc.toNat + 1) % 65536), .read ((s.pc.toNat + 2) % 65536), .read a.toNat] := by
  rw [units, codeUnits, toNat_pc_add_one, toNat_pc_add_two]
  rfl

theorem Mode.units_absIdx (a : Addr) (off : Byte) : (absIdx a off).units s =
    [.read s.pc.toNat, .read ((s.pc.toNat + 1) % 65536), .read ((s.pc.toNat + 2) % 65536)] ++ crossIdle a off ++
      [.read (indexedAddr a off).toNat] := by
  rw [units, codeUnits, dataUnits, toNat_pc_add_one, toNat_pc_add_two, List.append_assoc]

theorem Mode.units_indX (d off : Byte) : (indX d off).units s =
    [.read s.pc.toNat, .read ((s.pc.toNat + 1) % 65536), .idle, .read ((d.toNat + off.toNat) % 256),
      .read ((d.toNat + off.toNat + 1) % 256), .read (pointerAt (d + off) s).toNat] := by
  have low : (zeroPageSum (d + off) 0).toNat = (d.toNat + off.toNat) % 256 := by
    rw [toNat_zeroPageSum_zero, BitVec.toNat_add]
  have high : (zeroPageSum (d + off) 1).toNat = (d.toNat + off.toNat + 1) % 256 := by
    rw [toNat_zeroPageSum, BitVec.toNat_add]
    exact Nat.mod_add_mod ..
  rw [units, codeUnits, dataUnits, toNat_pc_add_one, low, high]
  rfl

theorem Mode.units_indY (d off : Byte) : (indY d off).units s =
    [.read s.pc.toNat, .read ((s.pc.toNat + 1) % 65536), .read d.toNat, .read ((d.toNat + 1) % 256)] ++
      crossIdle (pointerAt d s) off ++ [.read (indexedAddr (pointerAt d s) off).toNat] := by
  have high : (zeroPageSum d 1).toNat = (d.toNat + 1) % 256 := toNat_zeroPageSum d 1
  rw [units, codeUnits, dataUnits, toNat_pc_add_one, toNat_zeroPageSum_zero, high, List.append_assoc]
  rfl

end

/-- Settles O27: the opcode selects the row, the row the mode, and each mode's units are one of the lemmas above. -/
theorem cycleUnitsFollowTheReadOrderTable : Obligations.CycleUnitsFollowTheReadOrderTable := by
  unfold Obligations.CycleUnitsFollowTheReadOrderTable
  intro stubs s op p p1 p2 d a16 us cross
  have d_eq : s.byteAt (s.pc + 1) = d := congrArg s.byteAt (pc_add_one_eq_ofNat_mod s.pc)
  have a16_eq : word (s.byteAt (s.pc + 2)) (s.byteAt (s.pc + 1)) = a16 := by
    rw [word_eq_ofNat, d_eq, pc_add_two_eq_ofNat_mod]
  have byteForm {o : Byte} {build : Byte → Instr} (hop : op = o) (hform : formOf o = some (.f2 build)) :
      us = (modeOf (build d) s).units s := d_eq ▸ specStep_units_of_f2 hop hform stubs
  have wordForm {o : Byte} {build : Addr → Instr} (hop : op = o) (hform : formOf o = some (.f3 build)) :
      us = (modeOf (build a16) s).units s := a16_eq ▸ specStep_units_of_f3 hop hform stubs
  simp only [List.mem_cons, List.not_mem_nil, or_false]
  refine ⟨?imm, ?zp, ?zpX, ?zpY, ?abs, ?absX, ?absY, ?indX, ?indY, ?other⟩
  case imm => rintro (h | h | h) <;> exact (byteForm h rfl).trans (Mode.units_imm s d)
  case zp => rintro (h | h | h) <;> exact (byteForm h rfl).trans (Mode.units_zp s d)
  case zpX => rintro (h | h) <;> exact (byteForm h rfl).trans (Mode.units_zpIdx s d s.x)
  case zpY => exact fun h => (byteForm h rfl).trans (Mode.units_zpIdx s d s.y)
  case abs => rintro (h | h | h) <;> exact (wordForm h rfl).trans (Mode.units_abs s a16)
  case absX => rintro (h | h) <;> exact (wordForm h rfl).trans (Mode.units_absIdx s a16 s.x)
  case absY => rintro (h | h) <;> exact (wordForm h rfl).trans (Mode.units_absIdx s a16 s.y)
  case indX => exact fun h => (byteForm h rfl).trans (Mode.units_indX s d s.x)
  case indY => exact fun h => (byteForm h rfl).trans (Mode.units_indY s d s.y)
  case other => exact fun h2 h3 => specStep_units_of_instrAt_none (instrAt_eq_none h2 h3) stubs

end Sys2Proof.Machine

/-! ## O31 to O36: the loop and `execute`

Every turn takes one to six units (`executeLoop_turn`). The bounds, and the agreement with the steps of the core, are
inductions over the budget or the fuel that cite it. -/

namespace Sys2Proof.Machine

/-- An instruction run with a budget completes, and takes one to six units from it (R69, R93). -/
theorem runInstruction_next_cost (stubs : List Byte) {s : State} {c : Int} (hc : s.cyc = some c) :
    ∃ (t : State) (f : Int), runInstruction stubs s = .next t ∧ t.cyc = some f ∧ c - 6 ≤ f ∧ f < c := by
  have ran := stepAgreesWithSpecPseudocode stubs s
  have cost := runInstruction_cyc ran
  obtain ⟨least, most, -⟩ := specStep_units_bounds stubs s
  rw [hc, Option.map_some] at cost
  exact ⟨_, _, ran, cost, by omega, by omega⟩

/-- With budget, the loop turns once and goes on with the budget left, which is one to six units less. -/
theorem executeLoop_turn (stubs : List Byte) {n : Int} (h : 0 < n) (s : State) :
    ∃ (t : State) (f : Int), runInstruction stubs (beginExecute n s) = .next t ∧ t.cyc = some f ∧ n - 6 ≤ f ∧ f < n ∧
      executeLoop stubs n s = executeLoop stubs f t := by
  obtain ⟨t, f, ran, hf, least, lt⟩ := runInstruction_next_cost stubs (beginExecute_cyc s n)
  exact ⟨t, f, ran, hf, least, lt, executeLoop_of_pos h ran hf lt⟩

theorem executeLoop_final_budget (stubs : List Byte) (n : Int) (s : State) (h : 1 ≤ n) :
    ∃ (t : State) (f : Int), executeLoop stubs n s = .next t ∧ t.cyc = some f ∧ -5 ≤ f ∧ f ≤ 0 := by
  obtain ⟨t, f, -, -, least, lt, goesOn⟩ := executeLoop_turn stubs h s
  rw [goesOn]
  rcases le_or_gt f 0 with exhausted | left
  · exact ⟨beginExecute f t, f, executeLoop_of_nonpos exhausted stubs t, beginExecute_cyc t f, by omega, exhausted⟩
  · exact executeLoop_final_budget stubs f t left
termination_by n.toNat

/-- Settles O31: `executeLoop_final_budget`. -/
theorem executeOverrunsByAtMostFive : Obligations.ExecuteOverrunsByAtMostFive := by
  unfold Obligations.ExecuteOverrunsByAtMostFive
  exact executeLoop_final_budget

/-! ### The number of turns -/

theorem loopSteps_of_not_running {s : State} (h : s.running = false) (stubs : List Byte) (fuel : Nat) :
    loopSteps stubs fuel s = 0 := by
  cases fuel with
  | zero => rfl
  | succ fuel => simp [loopSteps, h]

theorem loopSteps_succ_of_next {stubs : List Byte} {s t : State} {c : Int} (hc : s.cyc = some c) (hpos : 0 < c)
    (ht : runInstruction stubs s = .next t) (fuel : Nat) :
    loopSteps stubs (fuel + 1) s = loopSteps stubs fuel t + 1 := by
  rw [loopSteps, if_pos (running_iff.2 ⟨c, hc, hpos⟩), ht]

/-- With fuel for the budget, every turn takes at least one and at most six units of it (R70). -/
theorem loopSteps_bounds (stubs : List Byte) {fuel : Nat} {s : State} {c : Int} (hc : s.cyc = some c)
    (h : c.toNat ≤ fuel) : c ≤ 6 * (loopSteps stubs fuel s : Int) ∧ loopSteps stubs fuel s ≤ c.toNat := by
  induction fuel generalizing s c with
  | zero =>
    rw [loopSteps]
    omega
  | succ fuel ih =>
    rcases le_or_gt c 0 with exhausted | hpos
    · rw [loopSteps_of_not_running (not_running_of_nonpos hc exhausted)]
      omega
    · obtain ⟨t, f, ran, hf, least, lt⟩ := runInstruction_next_cost stubs hc
      obtain ⟨lower, upper⟩ := ih hf (by omega)
      rw [loopSteps_succ_of_next hc hpos ran]
      omega

/-- Settles O32: `loopSteps_bounds`, at the beginning of the invocation. -/
theorem executeRunsBoundedNumberOfSteps : Obligations.ExecuteRunsBoundedNumberOfSteps := by
  unfold Obligations.ExecuteRunsBoundedNumberOfSteps
  intro stubs n s fuel hn hfuel
  obtain ⟨lower, upper⟩ := loopSteps_bounds stubs (beginExecute_cyc s n) hfuel
  exact ⟨lower, by rw [beginExecute] at upper; omega⟩

/-! ### The return -/

theorem execute_of_nonpos {n : Int} (h : n ≤ 0) (stubs : List Byte) (s : State) :
    execute stubs n s = .next (endExecute s) := by
  rw [execute, executeLoop_of_nonpos h]
  rfl

/-- Settles O33: the one turn takes the whole budget of 1, so `execute` returns after it. -/
theorem executeOneRunsOneInstruction : Obligations.ExecuteOneRunsOneInstruction := by
  unfold Obligations.ExecuteOneRunsOneInstruction
  intro stubs s
  obtain ⟨t, f, ran, -, -, lt, goesOn⟩ := executeLoop_turn stubs Int.one_pos s
  exact ⟨t, ran, (execute_congr goesOn).trans (execute_of_nonpos (by omega) stubs t)⟩

/-! ### Steps of the core -/

theorem run_succ_of_next {M : Host.Core} {s t : M.State} (h : M.step s = .next t) (k : Nat) :
    M.run (k + 1) s = M.run k t := by
  rw [Host.Core.run, h]

theorem core_run_succ {s t : State} (h : step s = .next t) (k : Nat) :
    Host.Core.run core (k + 1) s = Host.Core.run core k t :=
  run_succ_of_next (M := core) h k

theorem core_run_of_idle {s : State} (h : s.cyc = none) (k : Nat) : Host.Core.run core k s = .next s := by
  induction k with
  | zero => rfl
  | succ k ih => rw [core_run_succ (stepWith_of_none h _), ih]

theorem core_run_eq_execute {k : Nat} {s : State} {c : Int} (hc : s.cyc = some c) (h : c.toNat < k) :
    Host.Core.run core k s = execute Params.stubOpcodes c s := by
  induction k generalizing s c with
  | zero => omega
  | succ k ih =>
    rcases le_or_gt c 0 with exhausted | hpos
    · rw [core_run_succ (stepWith_of_exhausted hc (Int.not_lt.2 exhausted) _), execute_of_nonpos exhausted]
      exact core_run_of_idle (endExecute_cyc s) k
    · obtain ⟨t, f, ran, hf, -, lt⟩ := runInstruction_next_cost Params.stubOpcodes hc
      rw [core_run_succ ((stepWith_of_pos hc hpos _).trans ran), ih hf (by omega)]
      refine (execute_congr (executeLoop_of_pos hpos ?_ hf lt)).symm
      rw [beginExecute_of_cyc_eq hc, ran]

/-- Settles O34: `core_run_eq_execute`; `execute` sets the budget itself, whether the state has it already or not. -/
theorem stepsOfTheMachineMakeUpTheInvocation : Obligations.StepsOfTheMachineMakeUpTheInvocation := by
  unfold Obligations.StepsOfTheMachineMakeUpTheInvocation
  intro n s k hk
  rw [core_run_eq_execute rfl hk, execute, execute, executeLoop, executeLoop]
  rfl

/-! ### Freshly reset memory -/

/-- With nothing but zeros in memory and no stubs, an instruction reports the byte `0x00` and skips it. -/
theorem runInstruction_of_empty_mem {s : State} (h : s.mem = []) :
    runInstruction [] s = .next ((s.spent 1 1).report (.unknownOpcode 0x00 s.pc)) := by
  have zero (a : Addr) : s.byteAt a = 0x00 := by rw [State.byteAt, h]; rfl
  have none_at : s.instrAt = none := by rw [State.instrAt, zero]; rfl
  rw [runInstruction_none none_at, if_neg List.not_mem_nil, zero, charge_advance_eq_spent]

/-- The reports of `n` zero bytes from address `p` on (43_unrecognized_opcodes.md R126). -/
def zeroReports (p : Addr) (n : Nat) : List Report :=
  (List.range n).map fun k => Report.unknownOpcode 0x00 (BitVec.ofNat 16 (p.toNat + k))

/-- Going on by `n` from the next address (10_state.md R14). -/
theorem ofNat_next_add (p : Addr) (n : Nat) :
    BitVec.ofNat 16 ((BitVec.ofNat 16 (p.toNat + 1)).toNat + n) = BitVec.ofNat 16 (p.toNat + (n + 1)) := by
  bv_omega

theorem zeroReports_succ (p : Addr) (n : Nat) :
    zeroReports p (n + 1) = .unknownOpcode 0x00 p :: zeroReports (BitVec.ofNat 16 (p.toNat + 1)) n := by
  have first : BitVec.ofNat 16 (p.toNat + 0) = p := by rw [Nat.add_zero, BitVec.ofNat_toNat, BitVec.setWidth_eq]
  rw [zeroReports, List.range_succ_eq_map, List.map_cons, List.map_map, first]
  congr 2
  funext k
  exact congrArg _ (ofNat_next_add p k).symm

theorem execute_of_empty_mem (n : Nat) {s : State} (h : s.mem = []) :
    execute [] n s = .next { s with
      pc := BitVec.ofNat 16 (s.pc.toNat + n), log := s.log ++ zeroReports s.pc n, cyc := none } := by
  induction n generalizing s with
  | zero =>
    rw [Nat.cast_zero, execute_of_nonpos le_rfl, endExecute, Nat.add_zero, BitVec.ofNat_toNat, BitVec.setWidth_eq,
      zeroReports, List.range_zero, List.map_nil, List.append_nil]
  | succ n ih =>
    have ran := runInstruction_of_empty_mem (s := beginExecute (n + 1 : Nat) s) h
    have left : some (((n + 1 : Nat) : Int) - 1) = some (n : Int) := by
      rw [Nat.cast_add, Nat.cast_one, Int.add_sub_cancel]
    rw [execute_congr (executeLoop_of_pos (by omega) ran left (by omega))]
    refine (ih ?memEmpty).trans ?_
    case memEmpty => exact h
    simp only [report_pc, report_log, State.spent, beginExecute_pc, beginExecute_log, ofNat_next_add, zeroReports_succ,
      List.append_assoc]
    rfl

/-- Settles O35: `execute_of_empty_mem`, at the reset state. -/
theorem freshResetRunReportsZeroBytes : Obligations.FreshResetRunReportsZeroBytes := by
  unfold Obligations.FreshResetRunReportsZeroBytes
  exact fun resetVector n => execute_of_empty_mem n rfl

/-! ### Memory is constant -/

/-- Memory and sp are the same, and of the flags Z and N alone may have been raised (10_state.md R13, R18, R28). -/
def State.StepFrame (s t : State) : Prop := t.mem = s.mem ∧ t.sp = s.sp ∧ s.flags.RaisedTo t.flags

theorem runInstruction_frame {stubs : List Byte} {s t : State} (h : runInstruction stubs s = .next t) :
    s.StepFrame t := by
  rcases runInstruction_cases h with ⟨i, -, rfl⟩ | ⟨-, rfl | rfl⟩
  · exact ⟨rfl, rfl, flagsAfterLoad_raised _ s.flags⟩
  · exact ⟨rfl, rfl, Flags.RaisedTo.refl s.flags⟩
  · exact ⟨rfl, rfl, Flags.RaisedTo.refl s.flags⟩

theorem runLoop_mem {stubs : List Byte} {fuel : Nat} {s t : State} (h : runLoop stubs fuel s = .next t) :
    t.mem = s.mem := by
  induction fuel generalizing s with
  | zero => exact congrArg State.mem (Host.Outcome.next.inj h).symm
  | succ fuel ih =>
    rw [runLoop] at h
    split at h
    · split at h
      · next u ran =>
        obtain ⟨kept, -, -⟩ := runInstruction_frame ran
        exact (ih h).trans kept
      · contradiction
      · contradiction
    · exact congrArg State.mem (Host.Outcome.next.inj h).symm

/-- Settles O36: the loop keeps memory, and neither the beginning nor the return writes it. -/
theorem executeNeverWritesMemory : Obligations.ExecuteNeverWritesMemory := by
  unfold Obligations.ExecuteNeverWritesMemory
  intro stubs n s t h addr
  unfold execute at h
  split at h
  · next u looped =>
    obtain rfl := Host.Outcome.next.inj h
    rw [endExecute_mem, runLoop_mem looped, beginExecute_mem]
  · contradiction
  · contradiction

end Sys2Proof.Machine

/-! ## O26, O38, O40, O42, O43: failed reads, and what the host does

The host's `read` and `write` are said on each side of the bound. A placed word is read back byte by byte. -/

namespace Sys2Proof.Machine

/-! ### The host's memory operations -/

theorem hostWrite_of_lt {addr : Nat} (h : addr < Config.memSize) (v : Byte) (s : State) :
    hostWrite addr v s = (.byte v, { s with mem := s.mem.put addr v }) := by
  simp [hostWrite, Memory.write, h]

theorem hostWrite_of_le {addr : Nat} (h : Config.memSize ≤ addr) (v : Byte) (s : State) :
    hostWrite addr v s = (.outOfRange addr, s.report (.outOfRange addr)) := by
  simp [hostWrite, Memory.write, Nat.not_lt.2 h]

theorem hostRead_of_lt {addr : Nat} (h : addr < Config.memSize) (s : State) :
    hostRead addr s = (.byte (s.mem.byteAt addr), s) := by
  rw [hostRead, Memory.read_of_lt h]

theorem hostRead_of_le {addr : Nat} (h : Config.memSize ≤ addr) (s : State) :
    hostRead addr s = (.outOfRange addr, s.report (.outOfRange addr)) := by
  rw [hostRead, Memory.read_of_le h]

/-- Settles O38: the two sides of the bound, and the laws of `Memory.put`. -/
theorem hostWriteThenReadGivesTheByte : Obligations.HostWriteThenReadGivesTheByte := by
  unfold Obligations.HostWriteThenReadGivesTheByte
  intro s addr v wf
  refine ⟨fun inRange => ⟨s.mem.put addr v, hostWrite_of_lt inRange v s, Memory.wf_put wf inRange v, ?readBack, ?others⟩,
    fun outside => ⟨hostWrite_of_le outside v s, hostRead_of_le outside s⟩⟩
  case readBack => rw [hostRead_of_lt inRange, Memory.byteAt_put_self wf]
  case others => exact fun b hb => s.mem.byteAt_put_of_ne v hb

/-! ### Reset, and when the host moves -/

/-- Settles O40: each field is what reset writes there, or is not written. -/
theorem resetEstablishesTheStartState : Obligations.ResetEstablishesTheStartState := by
  unfold Obligations.ResetEstablishesTheStartState
  intro resetVector s t
  refine ⟨rfl, rfl, rfl, rfl, rfl, rfl, ?zeroed, rfl, rfl⟩
  case zeroed => exact fun addr inRange => s.mem.read_init inRange

/-- Settles O42: with an invocation in progress no call is answered, and without one each call is. -/
theorem hostMovesOnlyBetweenInvocations : Obligations.HostMovesOnlyBetweenInvocations := by
  unfold Obligations.HostMovesOnlyBetweenInvocations
  intro resetVector call s
  constructor
  case mp =>
    contrapose
    exact fun inProgress answered => by simp [hostCall_eq_none_of_inProgress inProgress] at answered
  case mpr =>
    intro idle
    cases call <;> simp [hostCall, idle]

/-! ### Failed reads -/

/-- Settles O26: the failing read is the resolver's first, so the resolver fails as the read does, and the load with it. -/
theorem failedReadAbandonsTheLoad : Obligations.FailedReadAbandonsTheLoad := by
  unfold Obligations.FailedReadAbandonsTheLoad
  intro r addr s outside
  have failed := readByte_outOfRange outside s
  have abandoned := load_failed failed r
  rw [abandoned]
  refine ⟨rfl, load_failed ?_ r, load_failed ?_ r⟩
  · rw [resolveIndX, failed, Access.andThen_failed]
  · rw [resolveZpIdx, failed, Access.andThen_failed]

/-! ### A word placed at pc -/

theorem storeTableWord_byteAt {s : State} (wf : s.mem.wf = true) (nbits w : Nat) :
    (storeTableWord nbits w s).byteAt s.pc = tableByte nbits w 0 ∧
    (storeTableWord nbits w s).byteAt (s.pc + 1) = tableByte nbits w 1 ∧
    (storeTableWord nbits w s).byteAt (s.pc + 2) = tableByte nbits w 2 := by
  have inRange (a : Addr) : a.toNat < Config.memSize := a.isLt
  have first_ne_second : s.pc.toNat ≠ (s.pc + 1).toNat := by bv_omega
  have first_ne_third : s.pc.toNat ≠ (s.pc + 2).toNat := by bv_omega
  have second_ne_third : (s.pc + 1).toNat ≠ (s.pc + 2).toNat := by bv_omega
  have wf1 := Memory.wf_put wf (inRange s.pc) (tableByte nbits w 0)
  have wf2 := Memory.wf_put wf1 (inRange (s.pc + 1)) (tableByte nbits w 1)
  simp only [State.byteAt, storeTableWord]
  refine ⟨?first, ?second, ?third⟩
  case first =>
    rw [Memory.byteAt_put_of_ne _ _ first_ne_third, Memory.byteAt_put_of_ne _ _ first_ne_second,
      Memory.byteAt_put_self wf]
  case second => rw [Memory.byteAt_put_of_ne _ _ second_ne_third, Memory.byteAt_put_self wf1]
  case third => exact Memory.byteAt_put_self wf2 ..

theorem instrAt_storeTableWord {s : State} (wf : s.mem.wf = true) (nbits w : Nat) :
    (storeTableWord nbits w s).instrAt = decodeTableWord nbits w := by
  obtain ⟨first, second, third⟩ := storeTableWord_byteAt wf nbits w
  have pc_eq : (storeTableWord nbits w s).pc = s.pc := rfl
  rw [State.instrAt, pc_eq, first, second, third, decodeTableWord]

/-- The host's `execute(1)` does not change what stands at pc. -/
theorem instrAt_madeRunning (s : State) : s.madeRunning.instrAt = s.instrAt := by
  unfold State.madeRunning
  split <;> rfl

theorem running_madeRunning (s : State) : s.madeRunning.running = true := by
  unfold State.madeRunning
  split
  · next h => exact h
  · rfl

/-- Settles O43: the state runs, and the bytes at its pc decode to the instruction. -/
theorem placedWordIsTheNextInstruction : Obligations.PlacedWordIsTheNextInstruction := by
  unfold Obligations.PlacedWordIsTheNextInstruction
  intro s nbits w i wf decoded
  obtain ⟨c, hc, hpos⟩ := running_iff.1 (running_madeRunning (storeTableWord nbits w s))
  refine stepRunsDecodedInstruction _ c i hc hpos ?_
  exact (instrAt_madeRunning _).trans ((instrAt_storeTableWord wf nbits w).trans decoded)

end Sys2Proof.Machine

/-! ## O44 to O47: the invariant

A step keeps memory and sp and raises Z and N at most (`stepWith_frame`); a host call other than reset keeps sp and the
flags (`hostCall_frame`). Both keep the invariant, and reset establishes it, so every reachable state has it. -/

namespace Sys2Proof.Machine

/-- The invariant speaks of memory, sp and the five inert flags alone. -/
theorem State.Inv.congr {s t : State} (h : s.Inv) (hmem : s.mem.wf = true → t.mem.wf = true) (hsp : t.sp = s.sp)
    {z n : Bool} (hflags : t.flags = { s.flags with z := z, n := n }) : t.Inv := by
  obtain ⟨wf, sp, inert⟩ := h
  refine ⟨hmem wf, hsp.trans sp, ?_⟩
  rw [hflags]
  exact inert

theorem inv_resetAt (resetVector : Addr) : (State.resetAt resetVector).Inv :=
  ⟨rfl, rfl, rfl, rfl, rfl, rfl, rfl⟩

theorem inv_hostReset (resetVector : Addr) (s : State) : (hostReset resetVector s).Inv :=
  ⟨rfl, rfl, rfl, rfl, rfl, rfl, rfl⟩

/-- Settles O44: the invariant is evaluated on the reset state. -/
theorem invariantHoldsAfterReset : Obligations.InvariantHoldsAfterReset :=
  ⟨inv_resetAt _, inv_resetAt⟩

theorem stepWith_frame {stubs : List Byte} {s t : State} (h : stepWith stubs s = .next t) : s.StepFrame t := by
  rcases stepWith_cases h with ran | rfl | rfl
  · exact runInstruction_frame ran
  · exact ⟨rfl, rfl, Flags.RaisedTo.refl s.flags⟩
  · exact ⟨rfl, rfl, Flags.RaisedTo.refl _⟩

theorem stepWith_keeps_inv {stubs : List Byte} {s t : State} (inv : s.Inv) (h : stepWith stubs s = .next t) : t.Inv := by
  obtain ⟨hmem, hsp, z, n, hflags⟩ := stepWith_frame h
  exact inv.congr (fun wf => hmem ▸ wf) hsp hflags

/-- Settles O45: a step is a turn of the loop. -/
theorem everyStepKeepsTheInvariant : Obligations.EveryStepKeepsTheInvariant := by
  unfold Obligations.EveryStepKeepsTheInvariant
  exact fun s t inv h => stepWith_keeps_inv inv h

/-- The operation a call performs (40_fetch_execute_loop.md R72). -/
def HostCall.effect (resetVector : Addr) (s : State) : HostCall → State
  | .reset => hostReset resetVector s
  | .write addr v => (hostWrite addr v s).2
  | .read addr => (hostRead addr s).2
  | .init => hostInit s
  | .execute n => beginExecute n s

theorem eq_effect_of_hostCall {resetVector : Addr} {call : HostCall} {reply : Reply} {s t : State}
    (h : hostCall resetVector call s = some (reply, t)) : t = call.effect resetVector s := by
  unfold hostCall at h
  split at h
  · contradiction
  · cases call <;> exact (Prod.mk.inj (Option.some.inj h)).2.symm

/-- A host operation other than reset: memory stays canonical, and sp and the flags are left alone. -/
def State.OnlyMemoryMayChange (s t : State) : Prop :=
  (s.mem.wf = true → t.mem.wf = true) ∧ t.sp = s.sp ∧ t.flags = s.flags

theorem hostWrite_frame (addr : Nat) (v : Byte) (s : State) :
    s.OnlyMemoryMayChange (hostWrite addr v s).2 := by
  rcases lt_or_ge addr Config.memSize with inRange | outside
  · rw [hostWrite_of_lt inRange]
    exact ⟨fun wf => Memory.wf_put wf inRange v, rfl, rfl⟩
  · rw [hostWrite_of_le outside]
    exact ⟨id, rfl, rfl⟩

theorem hostRead_frame (addr : Nat) (s : State) : s.OnlyMemoryMayChange (hostRead addr s).2 := by
  rcases lt_or_ge addr Config.memSize with inRange | outside
  · rw [hostRead_of_lt inRange]
    exact ⟨id, rfl, rfl⟩
  · rw [hostRead_of_le outside]
    exact ⟨id, rfl, rfl⟩

/-- No call of the host but reset writes sp or a flag (70_reset_and_hazards.md R157). -/
theorem hostCall_frame {resetVector : Addr} {call : HostCall} {reply : Reply} {s t : State} (notReset : call ≠ .reset)
    (h : hostCall resetVector call s = some (reply, t)) : s.OnlyMemoryMayChange t := by
  have left := eq_effect_of_hostCall h
  cases call with
  | reset => contradiction
  | write addr v => exact left ▸ hostWrite_frame addr v s
  | read addr => exact left ▸ hostRead_frame addr s
  | init => exact left ▸ ⟨fun _ => rfl, rfl, rfl⟩
  | execute n => exact left ▸ ⟨id, rfl, rfl⟩

theorem hostCall_keeps_inv {resetVector : Addr} {call : HostCall} {reply : Reply} {s t : State} (inv : s.Inv)
    (h : hostCall resetVector call s = some (reply, t)) : t.Inv := by
  by_cases isReset : call = .reset
  · subst isReset
    obtain rfl : t = hostReset resetVector s := eq_effect_of_hostCall h
    exact inv_hostReset resetVector s
  · obtain ⟨hmem, hsp, hflags⟩ := hostCall_frame isReset h
    exact inv.congr hmem hsp hflags

/-- Settles O46: induction over how the state was reached. -/
theorem everyReachableStateHasTheInvariant : Obligations.EveryReachableStateHasTheInvariant := by
  unfold Obligations.EveryReachableStateHasTheInvariant
  intro resetVector stubs s reached
  induction reached with
  | reset => exact inv_resetAt resetVector
  | step _ stepped ih => exact stepWith_keeps_inv ih stepped
  | host _ called ih => exact hostCall_keeps_inv ih called

/-- Settles O47: `stepWith_frame` and `hostCall_frame`. -/
theorem onlyResetClearsAFlagOrWritesSp : Obligations.OnlyResetClearsAFlagOrWritesSp := by
  unfold Obligations.OnlyResetClearsAFlagOrWritesSp
  constructor
  case left => exact fun stubs s t h => (stepWith_frame h).2
  case right => exact fun resetVector call reply s t notReset h => (hostCall_frame notReset h).2

end Sys2Proof.Machine
